-- ==== Sys2Proof/Word.lean ====
section
/-! DEFINITION. Words, frames and transactions: the data that crosses the block's boundary. -/

namespace Sys2Proof

/-- One byte of a payload or of a frame (R11, R12). -/
abbrev Byte := BitVec 8

/-- A 32-bit word: a command header, an identifier, a codec operand (R70, R73). -/
abbrev Word := BitVec 32

/-- Bytes `d[1]` to `d[7]` of a frame: everything behind the PCI byte (R78, R80). -/
structure FrameTail where
  d1 : Byte
  d2 : Byte
  d3 : Byte
  d4 : Byte
  d5 : Byte
  d6 : Byte
  d7 : Byte
  deriving DecidableEq, Repr

/-- A frame's data: exactly 8 bytes, `d[0]` first (R12, R78). -/
structure Frame where
  d0 : Byte
  tail : FrameTail
  deriving DecidableEq, Repr

/-- One command as the host presents it (R70, R73): the header word `H` and the operands its op
code names, the 32-bit operands in R73's order and the byte operands first byte first. -/
structure Command where
  header : Word
  words : List Word
  bytes : List Byte
  deriving DecidableEq, Repr

end Sys2Proof
end

