-- ==== Sys2Proof/Config.lean ====
section
/-! DEFINITION. What is fixed for the block (R9, R10), and the values the spec leaves open. -/

namespace Sys2Proof.Config

/-- `PAD`, the padding byte of a PRODUCE_NEXT frame (R9, R128). -/
def PAD : Byte := 0xAA

/-- `FRAME_BYTES`, the data bytes of every frame (R9, R78). -/
def FRAME_BYTES : Nat := 8

/-- `SF_LIMIT`: with flow control enabled, a shorter payload goes out unsegmented (R9, R123). -/
def SF_LIMIT : BitVec 12 := 8

/-- `FF_DATA`, the payload bytes of a First Frame (R9, R124). -/
def FF_DATA : Nat := 6

/-- `CF_DATA`, the payload bytes of a Consecutive Frame (R9, R125). -/
def CF_DATA : Nat := 7

/-- `STD_LIMIT`: raw identifiers below it are standard form (R9, R77). -/
def STD_LIMIT : Word := 0x800

/-- `TX_CAP`, the outbound buffer's capacity in bytes (R10, R51). -/
def TX_CAP : Nat := 4095

/-- `RX_CAP`, the reassembly buffer's capacity in bytes (R10, R53). -/
def RX_CAP : Nat := 4095

/-- `SEQ_INIT`, the sequence counter when a transfer starts (R10, R30). -/
def SEQ_INIT : BitVec 4 := 0

/-- FREE VALUE (assumption 3): what a byte of `TXBUF` that no LOAD has written holds.
The spec gives such bytes no value (R56, R210, U4), so nothing constrains it. -/
opaque txUnspecified : Nat → Byte

/-- FREE VALUE (assumption 3): what a byte of `RXBUF` that no CONSUME has written holds
(R56, R210, U4). -/
opaque rxUnspecified : Nat → Byte

end Sys2Proof.Config
end

