-- ==== Sys2Proof/Syntax.lean ====
section
/-! DEFINITION. The instructions: one constructor per row of spec/opcode_table.json.

The table has four formats. A `CMD32` row is a command of the host (R72). An `ID32` row is a form of
the raw identifier (R77). A `FRAME_D0` row is a kind of received frame (R79). A `FRAME_TX` row is an
outcome of PRODUCE_NEXT or PRODUCE_FC; the state selects it, no word does (R120, R130). -/

namespace Sys2Proof

/-- The rows of spec/opcode_table.json with their operands. -/
inductive Instr where
  /-- DECODE, `H = 0x00000001` (R100). -/
  | decode (raw : Word)
  /-- ENC_EXT, `H = 0x00000002` (R103). -/
  | encExt (pri arb snd : Word)
  /-- ENC_STD, `H = 0x00000003` (R104). -/
  | encStd (arb : Word)
  /-- LOAD, `H = N << 8 | F << 5 | A << 4 | 0x4` (R170), with `N` the payload's length. -/
  | load (tidin : Word) (await fcen : Bool) (payload : List Byte)
  /-- PRODUCE_NEXT, `H = 0x00000005` (R120). -/
  | produceNext
  /-- PRODUCE_FC, `H = 0x00000006` (R130). -/
  | produceFc
  /-- CONSUME, `H = 0x00000007` (R140). -/
  | consume (rxid : Word) (rxd : Frame)
  /-- READ_STATUS, `H = 0x00000008` (R173). -/
  | readStatus
  /-- READ_RX, `H = index << 8 | 0x9` (R174). -/
  | readRx (index : BitVec 12)
  /-- RESERVED_OP: a header with a reserved op code or a reserved bit set (R175). -/
  | reservedOp (header : Word)
  /-- ID_STD: a raw identifier below `0x800` (R76, R101). -/
  | idStd (arb : BitVec 11)
  /-- ID_EXT: a raw identifier of `0x800` or more, with its ignored bits 31:29 (R75, R102, R107). -/
  | idExt (pad pri : BitVec 3) (arb snd : BitVec 13)
  /-- RX_SF: a received UNSEGMENTED frame (R80, R146). -/
  | rxSf (rxid : Word) (len : BitVec 4) (tail : FrameTail)
  /-- RX_FF: a received FIRST_SEGMENT frame (R81, R149). -/
  | rxFf (rxid : Word) (lenHi : BitVec 4) (tail : FrameTail)
  /-- RX_CF: a received CONSECUTIVE_SEGMENT frame (R82, R152). -/
  | rxCf (rxid : Word) (sn : BitVec 4) (tail : FrameTail)
  /-- RX_FC: a received FLOW_CONTROL frame (R83, R154). -/
  | rxFc (rxid : Word) (fs : BitVec 4) (tail : FrameTail)
  /-- RX_RSVD_4_7: a received frame with PCI `0x4`–`0x7`; `low` is `d[0][5:0]` (R156). -/
  | rxRsvd47 (rxid : Word) (low : BitVec 6) (tail : FrameTail)
  /-- RX_RSVD_8_F: a received frame with PCI `0x8`–`0xF`; `low` is `d[0][6:0]` (R156). -/
  | rxRsvd8F (rxid : Word) (low : BitVec 7) (tail : FrameTail)
  /-- TX_RAW: PRODUCE_NEXT with `FCEN = 0` (R122). -/
  | txRaw
  /-- TX_SF: PRODUCE_NEXT with `FCEN = 1`, `TXLEN < 8` (R123). -/
  | txSf
  /-- TX_FF: PRODUCE_NEXT with `FCEN = 1`, `TXLEN ≥ 8`, `TXPROG = 0` (R124). -/
  | txFf
  /-- TX_CF: PRODUCE_NEXT with `FCEN = 1`, `TXLEN ≥ 8`, `0 < TXPROG < TXLEN` (R125). -/
  | txCf
  /-- TX_NONE: PRODUCE_NEXT with `FCEN = 1`, `TXLEN ≥ 8` and nothing left to send (R126). -/
  | txNone
  /-- TX_FC: PRODUCE_FC in SEND_FLOW_CONTROL (R130, R131). -/
  | txFc
  deriving DecidableEq, Repr

end Sys2Proof
end

