-- ==== Sys2Proof/Decode.lean ====
section
/-! DEFINITION. The decoder and the encoder.

R87 gives three decoders: a command by its header, a raw identifier by its value, a received frame by
the PCI nibble of `d[0]`. `Code` keeps the three spaces apart: the same number means something else
in each of them. -/

namespace Sys2Proof

/-- What a decoder of R87 reads: a transaction, a raw identifier, or a received frame with the
identifier it came under. -/
inductive Code where
  | cmd (c : Command)
  | ident (raw : Word)
  | frame (rxid : Word) (d : Frame)
  deriving DecidableEq, Repr

/-- Why a transaction is no command. R73 fixes the operands of a legal header, so a host that keeps
to the interface never causes one. -/
inductive DecodeError where
  /-- The operands are not those R73 names for the header's op code. -/
  | operandMismatch
  /-- LOAD's payload does not have exactly `H.N` bytes (R73). -/
  | payloadLength
  deriving DecidableEq, Repr

/-- `H[3:0]`, the op code (R71). -/
def headerOp (h : Word) : BitVec 4 := h.extractLsb' 0 4

/-- `H[4]`, LOAD's await-response bit (R71). -/
def headerA (h : Word) : Bool := h.getLsbD 4

/-- `H[5]`, LOAD's flow-control bit (R71). -/
def headerF (h : Word) : Bool := h.getLsbD 5

/-- `H[7:6]`, reserved for every op code (R71). -/
def headerReservedLow (h : Word) : BitVec 2 := h.extractLsb' 6 2

/-- `H[19:8]`, LOAD's payload length or READ_RX's index (R71). -/
def headerN (h : Word) : BitVec 12 := h.extractLsb' 8 12

/-- `H[31:20]`, reserved for every op code (R71). -/
def headerReservedHigh (h : Word) : BitVec 12 := h.extractLsb' 20 12

/-- A reserved op code (`0x0`, `0xA`–`0xF`), or a nonzero bit the op code reserves: bits 31:20 and 7:6
always, bits 19:8 but for LOAD and READ_RX, bits 5 and 4 but for LOAD (R71, R86, R175). -/
def illegalHeader (h : Word) : Bool :=
  headerOp h == 0x0 || 0xA ≤ headerOp h
    || headerReservedHigh h != 0 || headerReservedLow h != 0
    || (headerOp h != 0x4 && headerOp h != 0x9 && headerN h != 0)
    || (headerOp h != 0x4 && (headerF h || headerA h))

/-- The word of an extended identifier's fields, most significant first (R75). -/
def extWord (pad pri : BitVec 3) (arb snd : BitVec 13) : Word := pad ++ pri ++ arb ++ snd

/-- The command decoder (R71, R72, R73, R175). An illegal header is RESERVED_OP whatever operands
stand beside it: it consumes none. -/
def decodeCommand (c : Command) : Except DecodeError Instr :=
  if illegalHeader c.header then .ok (.reservedOp c.header)
  else
    match (headerOp c.header).toNat with
    | 0x1 =>
      match c.words, c.bytes with
      | [raw], [] => .ok (.decode raw)
      | _, _ => .error .operandMismatch
    | 0x2 =>
      match c.words, c.bytes with
      | [pri, arb, snd], [] => .ok (.encExt pri arb snd)
      | _, _ => .error .operandMismatch
    | 0x3 =>
      match c.words, c.bytes with
      | [arb], [] => .ok (.encStd arb)
      | _, _ => .error .operandMismatch
    | 0x4 =>
      match c.words with
      | [tidin] =>
        if c.bytes.length = (headerN c.header).toNat then
          .ok (.load tidin (headerA c.header) (headerF c.header) c.bytes)
        else .error .payloadLength
      | _ => .error .operandMismatch
    | 0x5 =>
      match c.words, c.bytes with
      | [], [] => .ok .produceNext
      | _, _ => .error .operandMismatch
    | 0x6 =>
      match c.words, c.bytes with
      | [], [] => .ok .produceFc
      | _, _ => .error .operandMismatch
    | 0x7 =>
      match c.words, c.bytes with
      | [rxid], [d0, d1, d2, d3, d4, d5, d6, d7] =>
        .ok (.consume rxid ⟨d0, ⟨d1, d2, d3, d4, d5, d6, d7⟩⟩)
      | _, _ => .error .operandMismatch
    | 0x8 =>
      match c.words, c.bytes with
      | [], [] => .ok .readStatus
      | _, _ => .error .operandMismatch
    | 0x9 =>
      match c.words, c.bytes with
      | [], [] => .ok (.readRx (headerN c.header))
      | _, _ => .error .operandMismatch
    | _ => .error .operandMismatch

/-- The identifier decoder: the form by the value (R77, R101, R102). -/
def decodeIdent (raw : Word) : Instr :=
  if raw < Config.STD_LIMIT then .idStd (raw.extractLsb' 0 11)
  else
    .idExt (raw.extractLsb' 29 3) (raw.extractLsb' 26 3) (raw.extractLsb' 13 13)
      (raw.extractLsb' 0 13)

/-- `d[0][7:4]`, the PCI (R78). -/
def Frame.pci (d : Frame) : BitVec 4 := d.d0.extractLsb' 4 4

/-- `d[0][3:0]`, the PCI's parameter (R78). -/
def Frame.nibble (d : Frame) : BitVec 4 := d.d0.extractLsb' 0 4

/-- The frame decoder: the kind by the PCI (R79, R144). -/
def decodeFrame (rxid : Word) (d : Frame) : Instr :=
  match d.pci.toNat with
  | 0x0 => .rxSf rxid d.nibble d.tail
  | 0x1 => .rxFf rxid d.nibble d.tail
  | 0x2 => .rxCf rxid d.nibble d.tail
  | 0x3 => .rxFc rxid d.nibble d.tail
  | _ =>
    if d.d0.getLsbD 7 then .rxRsvd8F rxid (d.d0.extractLsb' 0 7) d.tail
    else .rxRsvd47 rxid (d.d0.extractLsb' 0 6) d.tail

/-- The decoder of R87. -/
def decode : Code → Except DecodeError Instr
  | .cmd c => decodeCommand c
  | .ident raw => .ok (decodeIdent raw)
  | .frame rxid d => .ok (decodeFrame rxid d)

/-- A header from its fields (R71): `{0, N, 0, F, A, OP}`. -/
def encodeHeader (n : BitVec 12) (f a : Bool) (op : BitVec 4) : Word :=
  0#12 ++ n ++ 0#2 ++ BitVec.ofBool f ++ BitVec.ofBool a ++ op

/-- A header whose op code allows no field beside it (R71). -/
def plainHeader (op : BitVec 4) : Word := encodeHeader 0 false false op

/-- The eight bytes of a frame in order (R12). -/
def Frame.bytes (d : Frame) : List Byte :=
  [d.d0, d.tail.d1, d.tail.d2, d.tail.d3, d.tail.d4, d.tail.d5, d.tail.d6, d.tail.d7]

/-- The encoder: what the host presents for a command (R71, R73, R88), the word of an identifier
(R75, R76), the frame of a received kind (R80 to R83). A `FRAME_TX` row has no word: it is selected
by the state (R120, R130). -/
def encode : Instr → Option Code
  | .decode raw => some (.cmd ⟨plainHeader 0x1, [raw], []⟩)
  | .encExt pri arb snd => some (.cmd ⟨plainHeader 0x2, [pri, arb, snd], []⟩)
  | .encStd arb => some (.cmd ⟨plainHeader 0x3, [arb], []⟩)
  | .load tidin a f payload =>
    some (.cmd ⟨encodeHeader (BitVec.ofNat 12 payload.length) f a 0x4, [tidin], payload⟩)
  | .produceNext => some (.cmd ⟨plainHeader 0x5, [], []⟩)
  | .produceFc => some (.cmd ⟨plainHeader 0x6, [], []⟩)
  | .consume rxid d => some (.cmd ⟨plainHeader 0x7, [rxid], d.bytes⟩)
  | .readStatus => some (.cmd ⟨plainHeader 0x8, [], []⟩)
  | .readRx j => some (.cmd ⟨encodeHeader j false false 0x9, [], []⟩)
  | .reservedOp h => some (.cmd ⟨h, [], []⟩)
  | .idStd arb => some (.ident (0#21 ++ arb))
  | .idExt pad pri arb snd => some (.ident (extWord pad pri arb snd))
  | .rxSf rxid len tail => some (.frame rxid ⟨0x0#4 ++ len, tail⟩)
  | .rxFf rxid lenHi tail => some (.frame rxid ⟨0x1#4 ++ lenHi, tail⟩)
  | .rxCf rxid sn tail => some (.frame rxid ⟨0x2#4 ++ sn, tail⟩)
  | .rxFc rxid fs tail => some (.frame rxid ⟨0x3#4 ++ fs, tail⟩)
  | .rxRsvd47 rxid low tail => some (.frame rxid ⟨0b01#2 ++ low, tail⟩)
  | .rxRsvd8F rxid low tail => some (.frame rxid ⟨0b1#1 ++ low, tail⟩)
  | .txRaw => none
  | .txSf => none
  | .txFf => none
  | .txCf => none
  | .txNone => none
  | .txFc => none

/-- How many 32-bit operands R73 gives an op code. -/
def wordOperands (op : BitVec 4) : Nat :=
  match op.toNat with
  | 0x1 => 1
  | 0x2 => 3
  | 0x3 => 1
  | 0x4 => 1
  | 0x7 => 1
  | _ => 0

/-- How many byte operands R73 gives a header: LOAD's `N` payload bytes, CONSUME's 8 frame bytes. -/
def byteOperands (h : Word) : Nat :=
  match (headerOp h).toNat with
  | 0x4 => (headerN h).toNat
  | 0x7 => 8
  | _ => 0

/-- The transaction that presents one table word with operands of zeros: a `FRAME_D0` byte is
presented by the CONSUME that carries it, a 32-bit word is presented as the header (assumption 6). -/
def tableTransaction (nbits w : Nat) : Command :=
  if nbits ≤ 8 then
    ⟨plainHeader 0x7, [0], [BitVec.ofNat 8 w, 0, 0, 0, 0, 0, 0, 0]⟩
  else
    let h := BitVec.ofNat 32 w
    if illegalHeader h then ⟨h, [], []⟩
    else ⟨h, List.replicate (wordOperands (headerOp h)) 0, List.replicate (byteOperands h) 0⟩

/-- What the decoder reads from a table word: a byte is the `d[0]` of a frame, a 32-bit word is a
header (assumption 6). -/
def decodeTableWord (nbits w : Nat) : Option Instr :=
  if nbits ≤ 8 then some (decodeFrame 0 ⟨BitVec.ofNat 8 w, ⟨0, 0, 0, 0, 0, 0, 0⟩⟩)
  else
    match decode (.cmd (tableTransaction nbits w)) with
    | .ok i => some i
    | .error _ => none

end Sys2Proof
end

