-- ==== Sys2Proof/WellFormed.lean ====
section
/-! DEFINITION. Which terms of `Instr` are instructions of the block. -/

namespace Sys2Proof

/-- Whether a term is an instruction. LOAD's payload fits its 12-bit length (R51, R172), RESERVED_OP's
header is illegal (R175), ID_EXT's word is not a standard identifier (R77); every other operand is
legal at every value of its width. -/
def Instr.wellFormed : Instr → Bool
  | .decode _ => true
  | .encExt _ _ _ => true
  | .encStd _ => true
  | .load _ _ _ payload => payload.length ≤ Config.TX_CAP
  | .produceNext => true
  | .produceFc => true
  | .consume _ _ => true
  | .readStatus => true
  | .readRx _ => true
  | .reservedOp h => illegalHeader h
  | .idStd _ => true
  | .idExt pad pri arb snd => Config.STD_LIMIT ≤ extWord pad pri arb snd
  | .rxSf _ _ _ => true
  | .rxFf _ _ _ => true
  | .rxCf _ _ _ => true
  | .rxFc _ _ _ => true
  | .rxRsvd47 _ _ _ => true
  | .rxRsvd8F _ _ _ => true
  | .txRaw => true
  | .txSf => true
  | .txFf => true
  | .txCf => true
  | .txNone => true
  | .txFc => true

end Sys2Proof
end

