-- ==== Sys2Proof/Machine/State.lean ====
section
/-! DEFINITION. The block's state (10_state.md), the result record (30_encoding.md R74), the reasons a
step can stop, and the state right after reset (R37, R210). -/

namespace Sys2Proof.Machine

/-- The register `STATE`: the seven states of R26. The code 7 is never held. -/
inductive XferState where
  | ready
  | sending
  | awaitingFlowControl
  | awaitingReply
  | sendFlowControl
  | completed
  | error
  deriving DecidableEq, Repr

/-- The result status codes of R191. Code 7 is never returned. -/
inductive Status where
  | ok
  | ignored
  | pending
  | nothingToSend
  | badState
  | badArg
  | illegal
  deriving DecidableEq, Repr

/-- What READ_STATUS returns: every engine register but the buffers, at its width of R22
(R74, R173). -/
structure StatusRecord where
  state : BitVec 3
  tid : BitVec 11
  txlen : BitVec 12
  txprog : BitVec 12
  seq : BitVec 4
  rxcnt : BitVec 12
  rxlen : BitVec 12
  rxlv : BitVec 1
  await : BitVec 1
  fcen : BitVec 1
  deriving DecidableEq, Repr

/-- The result fields beside `STATUS` (R74). A decoded identifier is the tagged variant of R38: a
standard one has no priority and no sender. -/
inductive Fields where
  /-- No field exists. -/
  | none
  /-- DECODE with `FORM = 0` (R101). -/
  | standardId (arbitration : BitVec 13)
  /-- DECODE with `FORM = 1` (R102). -/
  | extendedId (priority : BitVec 3) (arbitration sender : BitVec 13)
  /-- ENC_EXT and ENC_STD: `WORD` (R103, R104). -/
  | word (w : Word)
  /-- PRODUCE_NEXT and PRODUCE_FC: `FID`, `FIDE`, `FDATA` (R127). -/
  | frame (fid : Word) (fide : BitVec 1) (fdata : Frame)
  /-- READ_STATUS (R173). -/
  | registers (r : StatusRecord)
  /-- READ_RX: `BYTE` (R174). -/
  | byte (b : Byte)
  deriving DecidableEq, Repr

/-- The result record of a command (R74). -/
structure Result where
  status : Status
  fields : Fields
  deriving DecidableEq, Repr

/-- The values `NRC_INDEX` may have, the frame byte that holds the negative-response code: 2 to 7
(R10). -/
inductive NrcIndex where
  | byte2
  | byte3
  | byte4
  | byte5
  | byte6
  | byte7
  deriving DecidableEq, Repr

/-- The parameters a model takes as arguments (R10, D8, D9). They are a field of the state that no
step writes, so that a claim about every state is a claim about every value (assumption 1). -/
structure Params where
  negSid : Byte
  nrcPending : Byte
  nrcIndex : NrcIndex
  deriving DecidableEq, Repr

/-- What reaches the block from outside, one event at a time: a command of the host (R70), or a reset
(R210). -/
inductive Input where
  | command (c : Command)
  | reset
  deriving DecidableEq, Repr

/-- The contents of a byte buffer: the bytes written so far, by rising index. A byte that is not
listed has no value (R56, assumption 3). -/
structure Memory where
  cells : List Host.Cell
  deriving DecidableEq, Repr

/-- Everything the block holds (R22, R39), with the model's own fields `params`, `port` and `result`. -/
structure State where
  /-- `TID`, the transfer identifier (R23). -/
  tid : BitVec 11
  /-- `TXLEN`, the outbound payload's length (R24). -/
  txlen : BitVec 12
  /-- `TXBUF`, the outbound payload (R24, R51). -/
  txbuf : Memory
  /-- `RXCNT`, how many reassembled bytes are held (R25). -/
  rxcnt : BitVec 12
  /-- `RXBUF`, the reassembly buffer (R25, R53). -/
  rxbuf : Memory
  /-- `STATE` (R26). -/
  state : XferState
  /-- `TXPROG`, the payload bytes already placed in frames (R27). -/
  txprog : BitVec 12
  /-- `RXLEN`, the declared length of the reply (R28). -/
  rxlen : BitVec 12
  /-- `RXLV`, whether `RXLEN` was declared by a frame (R29). -/
  rxlv : Bool
  /-- `SEQ`, the transmit sequence counter (R30). -/
  seq : BitVec 4
  /-- `AWAIT`, the await-response flag (R31). -/
  await : Bool
  /-- `FCEN`, the handle-flow-control flag (R32). -/
  fcen : Bool
  /-- The parameters of R10 (the model's own field, assumption 1). -/
  params : Params
  /-- The events presented and not yet taken, oldest first (the model's own field, assumption 4). -/
  port : List Input
  /-- The result record of the last command, if one completed since reset (the model's own field,
  assumption 5). -/
  result : Option Result
  deriving DecidableEq, Repr

/-- The reasons a step stops with a fault: none. "No exceptions or panics are used": the block raises
no exception, and no command has a fault outcome (R190). -/
inductive Fault where
  deriving DecidableEq, Repr

/-- The reasons a step is refused. None is raised for a command the host can present (R73, R190). -/
inductive Refusal where
  /-- Raised by an arm of `exec` that has no meaning yet; no arm is left. Safe. -/
  | notModelled (mnemonic : String)
  /-- Raised by `step` for a transaction whose operands are not those R73 names for its header: no
  command of the interface. Safe. -/
  | malformedTransaction (why : DecodeError)
  /-- Raised by the meaning of a `FRAME_TX` row in a state that passes its command's gate and selects
  another row: the block cannot take that branch there. `step` never meets it, since no word
  encodes such a row (assumption 7). Safe. -/
  | branchNotSelected
  deriving DecidableEq, Repr

/-- The suggested instantiation of the parameters (R10, PRESUMED by assumption 2). -/
def Params.suggested : Params := ⟨0x7F, 0x78, .byte3⟩

/-- The state right after reset (R37, R210): `READY`, every other register 0, the buffers with no
value, nothing presented, no result. -/
def State.reset : State where
  tid := 0
  txlen := 0
  txbuf := ⟨[]⟩
  rxcnt := 0
  rxbuf := ⟨[]⟩
  state := .ready
  txprog := 0
  rxlen := 0
  rxlv := false
  seq := Config.SEQ_INIT
  await := false
  fcen := false
  params := .suggested
  port := []
  result := none

end Sys2Proof.Machine
end

