-- ==== Sys2Proof/Machine/Operands.lean ====
section
/-! DEFINITION. The operand forms: how multi-bit fields are assembled and taken apart (R85), the
codec's masks (R101 to R104), the bytes of a frame (R78), the codes of `STATE` and `STATUS`. -/

namespace Sys2Proof.Machine

/-- The code of a state (R26). -/
def XferState.code : XferState → BitVec 3
  | .ready => 0
  | .sending => 1
  | .awaitingFlowControl => 2
  | .awaitingReply => 3
  | .sendFlowControl => 4
  | .completed => 5
  | .error => 6

/-- The code of a status (R191). -/
def Status.code : Status → BitVec 3
  | .ok => 0
  | .ignored => 1
  | .pending => 2
  | .nothingToSend => 3
  | .badState => 4
  | .badArg => 5
  | .illegal => 6

/-- ENC_EXT's word (R103): each input masked to its field, then packed. -/
def encodeExtended (pri arb snd : Word) : Word :=
  ((pri &&& 0x7) <<< 26) ||| ((arb &&& 0x1FFF) <<< 13) ||| (snd &&& 0x1FFF)

/-- ENC_STD's word (R104): 11 bits behind 5 zero padding bits, extended to 32 bits. -/
def encodeStandard (arb : Word) : Word := ((arb &&& 0x7FF).setWidth 16).setWidth 32

/-- The fields of a raw identifier (R100 to R102). -/
def identFields (raw : Word) : Fields :=
  if raw < Config.STD_LIMIT then .standardId ((raw &&& 0x7FF).setWidth 13)
  else
    .extendedId (((raw >>> 26) &&& 0x7).setWidth 3) (((raw >>> 13) &&& 0x1FFF).setWidth 13)
      ((raw &&& 0x1FFF).setWidth 13)

/-- Bytes 1 to 7 of a frame in order. -/
def tailBytes (t : FrameTail) : List Byte := [t.d1, t.d2, t.d3, t.d4, t.d5, t.d6, t.d7]

/-- `RXD[NRC_INDEX]` (R145). -/
def nrcByte (ix : NrcIndex) (t : FrameTail) : Byte :=
  match ix with
  | .byte2 => t.d2
  | .byte3 => t.d3
  | .byte4 => t.d4
  | .byte5 => t.d5
  | .byte6 => t.d6
  | .byte7 => t.d7

/-- A frame of the given bytes, short ones padded with `PAD` to 8 (R78, R128). -/
def paddedFrame (l : List Byte) : Frame :=
  ⟨l.getD 0 Config.PAD,
    ⟨l.getD 1 Config.PAD, l.getD 2 Config.PAD, l.getD 3 Config.PAD, l.getD 4 Config.PAD,
      l.getD 5 Config.PAD, l.getD 6 Config.PAD, l.getD 7 Config.PAD⟩⟩

/-- The First Frame's length `L = (RXD[0] & 0x0F) << 8 | RXD[1]` (R85, R148). -/
def firstFrameLength (lenHi : BitVec 4) (lenLo : Byte) : BitVec 12 := lenHi ++ lenLo

/-- The PCI byte of an UNSEGMENTED frame, `{0x0, N}` (R80, R123). -/
def singleHeader (txlen : BitVec 12) : Byte := 0x0#4 ++ txlen.extractLsb' 0 4

/-- Bytes 0 and 1 of a FIRST_SEGMENT frame: `{0x1, L[11:8]}`, `L[7:0]` (R81, R85). -/
def firstHeader (txlen : BitVec 12) : List Byte :=
  [0x1#4 ++ txlen.extractLsb' 8 4, txlen.extractLsb' 0 8]

/-- The PCI byte of a CONSECUTIVE_SEGMENT frame, `0x20 | SEQ` (R82, R85). -/
def consecutiveHeader (seq : BitVec 4) : Byte := 0x2#4 ++ seq

/-- The flow-control frame PRODUCE_FC sends: `0x30`, then seven zero bytes (R83, R131). -/
def flowControlFrame : Frame := ⟨0x30, ⟨0, 0, 0, 0, 0, 0, 0⟩⟩

end Sys2Proof.Machine
end

