-- ==== Sys2Proof/Machine/Flags.lean ====
section
/-! DEFINITION. The conditions on the state that select a command's effect. The block has no
arithmetic flags or condition codes (R40); what the commands test are `STATE`, `AWAIT`, `FCEN`,
`RXLV` and comparisons of the counts. -/

namespace Sys2Proof.Machine

/-- The post-send state: `AWAITING_REPLY` if `AWAIT = 1`, else `COMPLETED` (R34). -/
def postSend (s : State) : XferState := if s.await then .awaitingReply else .completed

/-- The gate of PRODUCE_NEXT: `STATE ∈ {READY, SENDING}` (R120, R121). -/
def produceGate (s : State) : Bool := s.state == .ready || s.state == .sending

/-- The branch condition of TX_RAW behind the gate (R122). -/
def selectsRaw (s : State) : Bool := !s.fcen

/-- The branch condition of TX_SF behind the gate (R123). -/
def selectsSingle (s : State) : Bool := s.fcen && decide (s.txlen < Config.SF_LIMIT)

/-- The branch condition of TX_FF behind the gate (R124). -/
def selectsFirst (s : State) : Bool :=
  s.fcen && !decide (s.txlen < Config.SF_LIMIT) && s.txprog == 0

/-- The branch condition of TX_CF behind the gate (R125). -/
def selectsConsecutive (s : State) : Bool :=
  s.fcen && !decide (s.txlen < Config.SF_LIMIT) && s.txprog != 0 && decide (s.txprog < s.txlen)

/-- The branch condition of TX_NONE behind the gate: the last `else` of R120 (R126). -/
def selectsNothing (s : State) : Bool :=
  s.fcen && !decide (s.txlen < Config.SF_LIMIT) && s.txprog != 0 && !decide (s.txprog < s.txlen)

/-- The identifier match of CONSUME: `RXID[7:0] = TID[7:0]` (R142). -/
def idMatches (rxid : Word) (s : State) : Bool := rxid.extractLsb' 0 8 == s.tid.extractLsb' 0 8

/-- The response-pending pattern: `RXD[1] = NEG_SID` and `RXD[NRC_INDEX] = NRC_PENDING` (R145). -/
def responsePending (t : FrameTail) (s : State) : Bool :=
  t.d1 == s.params.negSid && nrcByte s.params.nrcIndex t == s.params.nrcPending

end Sys2Proof.Machine
end

