-- ==== Sys2Proof/Machine/Ops.lean ====
section
/-! DEFINITION. The named operations over the buffers and the registers: reading and writing a byte
(R52, R54), `RxAppend` and `RxClear` (R54, R55), `result` and `emit` (R13, R74), the branches of
PRODUCE_NEXT and the frame kinds of CONSUME as their rules name them (R122 to R126, R146 to R154),
and the reset event (R210).

The block takes no exception (R190). Its only analogue of one is the entry into `ERROR` (R193), which
`rxSingle` holds; what leaves `ERROR` is LOAD (R176) and the reset event (R194). -/

namespace Sys2Proof.Machine

/-! ## Buffers -/

/-- What is listed at an index, by rising index. -/
def readCells : List Host.Cell → Nat → Option Byte
  | [], _ => none
  | (i, v) :: rest, a => if i = a then some v else readCells rest a

/-- The byte at an index; no value where none was written (R56). -/
def Memory.read (m : Memory) (a : Nat) : Option Byte := readCells m.cells a

/-- The cells with one byte replaced or put in at its place. -/
def writeCells : List Host.Cell → Nat → Byte → List Host.Cell
  | [], a, v => [(a, v)]
  | (i, w) :: rest, a, v =>
    if a < i then (a, v) :: (i, w) :: rest
    else if a = i then (a, v) :: rest
    else (i, w) :: writeCells rest a v

/-- `MemWrite(_, a, 1, v)`: one byte (R13, R58). -/
def Memory.write (m : Memory) (a : Nat) (v : Byte) : Memory := ⟨writeCells m.cells a v⟩

/-- The cells of a byte list laid out from an index on. -/
def cellsFrom : Nat → List Byte → List Host.Cell
  | _, [] => []
  | a, v :: vs => (a, v) :: cellsFrom (a + 1) vs

/-- LOAD's write of a payload: `buf[i] <- p[i]` for every `i < len(p)`; bytes at `i ≥ len(p)` keep
what they held (R171). -/
def Memory.writePayload (m : Memory) (p : List Byte) : Memory :=
  ⟨cellsFrom 0 p ++ m.cells.filter (fun c => p.length ≤ c.1)⟩

/-- The canonical form: indices strictly rising and inside the buffer. An unlisted index reads as no
value, so no entry can equal it. -/
abbrev Memory.wf (cap : Nat) (m : Memory) : Prop :=
  m.cells.Pairwise (fun c d => c.1 < d.1) ∧ ∀ c ∈ m.cells, c.1 < cap

/-- `MemRead(TX, i, 1)` (R52); a byte no LOAD wrote has a free value (R56, assumption 3). -/
def txByte (s : State) (i : Nat) : Byte := (s.txbuf.read i).getD (Config.txUnspecified i)

/-- `MemRead(RX, i, 1)` (R13); a byte no CONSUME wrote has a free value (R56, assumption 3). -/
def rxByte (s : State) (i : Nat) : Byte := (s.rxbuf.read i).getD (Config.rxUnspecified i)

/-- `TXBUF[a..a+k-1]`. -/
def txSlice (s : State) (a k : Nat) : List Byte := (List.range' a k).map (txByte s)

/-! ## Results -/

/-- `result(status, fields)`: the command's result record (R13, R74). -/
def answer (st : Status) (f : Fields) (s : State) : State := { s with result := some ⟨st, f⟩ }

/-- `emit(ENC_STD(TID), 0, d); result(OK)`: the command's result is one frame addressed to the
transfer's identifier (R127). -/
def emitFrame (d : Frame) (s : State) : State :=
  answer .ok (.frame (encodeStandard (s.tid.setWidth 32)) 0 d) s

/-! ## The reassembly buffer -/

/-- `RxClear()`: only the count changes (R55). -/
def rxClear (s : State) : State := { s with rxcnt := 0 }

/-- `RxAppend(v)` (R54). -/
def rxAppend (v : Byte) (s : State) : State :=
  { s with rxbuf := s.rxbuf.write s.rxcnt.toNat v, rxcnt := s.rxcnt + 1 }

/-- `RxAppend` of each byte in order. -/
def rxAppendAll : List Byte → State → State
  | [], s => s
  | v :: vs, s => rxAppendAll vs (rxAppend v s)

/-- `RxAppend` of each byte in order while `RXCNT < RXLEN`; the test comes before each append
(R152). -/
def rxAppendBounded : List Byte → State → State
  | [], s => s
  | v :: vs, s => if s.rxcnt < s.rxlen then rxAppendBounded vs (rxAppend v s) else s

/-- A frame declares the length of the reply: `RxClear(); RXLEN <- L; RXLV <- 1` (R146, R149). -/
def rxDeclare (len : BitVec 12) (s : State) : State :=
  { rxClear s with rxlen := len, rxlv := true }

/-! ## The branches of PRODUCE_NEXT, and PRODUCE_FC -/

/-- `TxRaw` (R122). -/
def txRawFrame (s : State) : State :=
  let k := min s.txlen.toNat Config.FRAME_BYTES
  emitFrame (paddedFrame (txSlice s 0 k))
    { s with txprog := BitVec.ofNat 12 k, state := postSend s }

/-- `TxSingle` (R123). -/
def txSingleFrame (s : State) : State :=
  emitFrame (paddedFrame (singleHeader s.txlen :: txSlice s 0 s.txlen.toNat))
    { s with txprog := s.txlen, state := postSend s }

/-- `TxFirst` (R124). -/
def txFirstFrame (s : State) : State :=
  emitFrame (paddedFrame (firstHeader s.txlen ++ txSlice s 0 Config.FF_DATA))
    { s with txprog := BitVec.ofNat 12 Config.FF_DATA, state := .awaitingFlowControl }

/-- `TxConsecutive` (R125): `d[0]` holds `SEQ` as it was before the increment. -/
def txConsecutiveFrame (s : State) : State :=
  let k := min Config.CF_DATA (s.txlen.toNat - s.txprog.toNat)
  let progress := s.txprog + BitVec.ofNat 12 k
  emitFrame (paddedFrame (consecutiveHeader s.seq :: txSlice s s.txprog.toNat k))
    { s with
      txprog := progress
      seq := s.seq + 1
      state := if progress = s.txlen then postSend s else s.state }

/-- `TxNothing` (R126). -/
def txNothing (s : State) : State := answer .nothingToSend .none { s with state := postSend s }

/-- The effect of PRODUCE_FC in `SEND_FLOW_CONTROL` (R130, R131). -/
def txFlowControl (s : State) : State :=
  emitFrame flowControlFrame { s with state := .awaitingReply }

/-! ## The frame kinds of CONSUME -/

/-- `RxSingle`: the response-pending check before any write (R145), then the append of at most 7
bytes and the end in `ERROR` or `COMPLETED` (R146, R147, R193). -/
def rxSingle (len : BitVec 4) (t : FrameTail) (s : State) : State :=
  if responsePending t s then answer .pending .none s
  else
    let r := rxAppendAll ((tailBytes t).take (min len.toNat 7)) (rxDeclare (len.setWidth 12) s)
    answer .ok .none { r with state := if t.d1 = s.params.negSid then .error else .completed }

/-- `RxFirst` (R148 to R150). -/
def rxFirst (lenHi : BitVec 4) (t : FrameTail) (s : State) : State :=
  let len := firstFrameLength lenHi t.d1
  let r := rxAppendAll (((tailBytes t).drop 1).take (min 6 len.toNat)) (rxDeclare len s)
  answer .ok .none { r with state := if len < 6 then .completed else .sendFlowControl }

/-- `RxConsecutive` (R151 to R153): the sequence number is not looked at. -/
def rxConsecutive (t : FrameTail) (s : State) : State :=
  if s.rxlv then
    let r := rxAppendBounded (tailBytes t) s
    answer .ok .none { r with state := if r.rxcnt = r.rxlen then .completed else r.state }
  else answer .ignored .none s

/-- `RxFlowControl` (R154, R155): the content is not looked at. -/
def rxFlowControl (s : State) : State := answer .ok .none { s with state := .sending }

/-! ## Events -/

/-- The reset event (R210): the registers at their values of R37, the buffers with no value, no
result. The parameters and what is still presented are outside the reset (assumptions 1, 4). -/
def resetEvent (s : State) : State := { State.reset with params := s.params, port := s.port }

/-- The oldest event presented, and the state with it taken from the port (R63, R70). -/
def takeInput (s : State) : Option (Input × State) :=
  match s.port with
  | [] => none
  | e :: rest => some (e, { s with port := rest })

/-- The state with an event put where the next step takes it. -/
def present (e : Input) (s : State) : State := { s with port := e :: s.port }

end Sys2Proof.Machine
end

