-- ==== Sys2Proof/Machine/Codec.lean ====
section
/-! DEFINITION. The identifier codec (40_identifier_codec.md). It reads only its operands and writes no
register (R108); it has no error condition (R105). -/

namespace Sys2Proof.Machine

/-- DECODE (R100). -/
def execDecode (raw : Word) (s : State) : Host.Outcome State Fault Refusal :=
  .next (answer .ok (identFields raw) s)

/-- ENC_EXT (R103). -/
def execEncExt (pri arb snd : Word) (s : State) : Host.Outcome State Fault Refusal :=
  .next (answer .ok (.word (encodeExtended pri arb snd)) s)

/-- ENC_STD (R104). -/
def execEncStd (arb : Word) (s : State) : Host.Outcome State Fault Refusal :=
  .next (answer .ok (.word (encodeStandard arb)) s)

/-- ID_STD: DECODE of a standard-form identifier (R101). -/
def execIdStd (arb : BitVec 11) (s : State) : Host.Outcome State Fault Refusal :=
  .next (answer .ok (.standardId (arb.setWidth 13)) s)

/-- ID_EXT: DECODE of an extended-form identifier; bits 31:29 are ignored (R102, R107). -/
def execIdExt (_pad pri : BitVec 3) (arb snd : BitVec 13) (s : State) :
    Host.Outcome State Fault Refusal :=
  .next (answer .ok (.extendedId pri arb snd) s)

end Sys2Proof.Machine
end

