-- ==== Sys2Proof/Machine/HostCommands.lean ====
section
/-! DEFINITION. The host commands (43_host_commands.md): LOAD, READ_STATUS, READ_RX, and a header with a
reserved op code or a reserved bit. -/

namespace Sys2Proof.Machine

/-- LOAD (R170 to R172, R176): accepted in every state. -/
def execLoad (tidin : Word) (await fcen : Bool) (payload : List Byte) (s : State) :
    Host.Outcome State Fault Refusal :=
  if Config.STD_LIMIT ≤ tidin then .next (answer .badArg .none s)
  else
    let n := BitVec.ofNat 12 payload.length
    .next
      (answer .ok .none
        { rxClear s with
          tid := tidin.extractLsb' 0 11
          txlen := n
          txbuf := s.txbuf.writePayload (payload.take n.toNat)
          await := await
          fcen := fcen
          state := .ready
          txprog := 0
          seq := Config.SEQ_INIT
          rxlen := 0
          rxlv := false })

/-- The registers READ_STATUS returns (R173). -/
def statusRecord (s : State) : StatusRecord where
  state := s.state.code
  tid := s.tid
  txlen := s.txlen
  txprog := s.txprog
  seq := s.seq
  rxcnt := s.rxcnt
  rxlen := s.rxlen
  rxlv := BitVec.ofBool s.rxlv
  await := BitVec.ofBool s.await
  fcen := BitVec.ofBool s.fcen

/-- READ_STATUS (R173). -/
def execReadStatus (s : State) : Host.Outcome State Fault Refusal :=
  .next (answer .ok (.registers (statusRecord s)) s)

/-- READ_RX (R174). -/
def execReadRx (index : BitVec 12) (s : State) : Host.Outcome State Fault Refusal :=
  if s.rxcnt ≤ index then .next (answer .badArg .none s)
  else .next (answer .ok (.byte (rxByte s index.toNat)) s)

/-- RESERVED_OP: `ILLEGAL`, no effect, no operand consumed (R175). -/
def execReservedOp (_header : Word) (s : State) : Host.Outcome State Fault Refusal :=
  .next (answer .illegal .none s)

end Sys2Proof.Machine
end

