-- ==== Sys2Proof/Machine/Inbound.lean ====
section
/-! DEFINITION. Inbound consumption (42_inbound_consumption.md): CONSUME, and the rows of the opcode
table that are the kinds of received frame. -/

namespace Sys2Proof.Machine

/-- `result(IGNORED)`: the frame changed nothing (R157). -/
def ignoreFrame (s : State) : State := answer .ignored .none s

/-- CONSUME (R140): identifier match, state gate, PCI dispatch, in that order (R195). -/
def execConsume (rxid : Word) (rxd : Frame) (s : State) : Host.Outcome State Fault Refusal :=
  if !idMatches rxid s then .next (ignoreFrame s)
  else if s.state = .awaitingFlowControl ∧ rxd.pci = 0x3 then .next (rxFlowControl s)
  else if s.state ≠ .awaitingReply then .next (ignoreFrame s)
  else if rxd.pci = 0x0 then .next (rxSingle rxd.nibble rxd.tail s)
  else if rxd.pci = 0x1 then .next (rxFirst rxd.nibble rxd.tail s)
  else if rxd.pci = 0x2 then .next (rxConsecutive rxd.tail s)
  else if rxd.pci = 0x3 then .next (rxFlowControl s)
  else .next (ignoreFrame s)

/-- The gate every frame kind but FLOW_CONTROL passes: the identifier matches and the engine is in
`AWAITING_REPLY` (R142, R143). -/
def replyGate (rxid : Word) (s : State) : Bool := idMatches rxid s && s.state == .awaitingReply

/-- RX_SF (R145 to R147). -/
def execRxSf (rxid : Word) (len : BitVec 4) (tail : FrameTail) (s : State) :
    Host.Outcome State Fault Refusal :=
  .next (if replyGate rxid s then rxSingle len tail s else ignoreFrame s)

/-- RX_FF (R148 to R150). -/
def execRxFf (rxid : Word) (lenHi : BitVec 4) (tail : FrameTail) (s : State) :
    Host.Outcome State Fault Refusal :=
  .next (if replyGate rxid s then rxFirst lenHi tail s else ignoreFrame s)

/-- RX_CF (R151 to R153). -/
def execRxCf (rxid : Word) (_sn : BitVec 4) (tail : FrameTail) (s : State) :
    Host.Outcome State Fault Refusal :=
  .next (if replyGate rxid s then rxConsecutive tail s else ignoreFrame s)

/-- RX_FC (R154, R155): also applied in `AWAITING_FLOW_CONTROL` (R143). -/
def execRxFc (rxid : Word) (_fs : BitVec 4) (_tail : FrameTail) (s : State) :
    Host.Outcome State Fault Refusal :=
  .next
    (if idMatches rxid s && (s.state == .awaitingReply || s.state == .awaitingFlowControl) then
      rxFlowControl s
    else ignoreFrame s)

/-- RX_RSVD_4_7: ignored in every state (R156). -/
def execRxRsvd47 (_rxid : Word) (_low : BitVec 6) (_tail : FrameTail) (s : State) :
    Host.Outcome State Fault Refusal :=
  .next (ignoreFrame s)

/-- RX_RSVD_8_F: ignored in every state (R156). -/
def execRxRsvd8F (_rxid : Word) (_low : BitVec 7) (_tail : FrameTail) (s : State) :
    Host.Outcome State Fault Refusal :=
  .next (ignoreFrame s)

end Sys2Proof.Machine
end

