-- ==== Sys2Proof/Machine/Outbound.lean ====
section
/-! DEFINITION. Outbound framing (41_outbound_framing.md): PRODUCE_NEXT, PRODUCE_FC, and the rows of the
opcode table that are their branches. -/

namespace Sys2Proof.Machine

/-- PRODUCE_NEXT (R120): the branches in the source's order, the first that holds is taken. -/
def execProduceNext (s : State) : Host.Outcome State Fault Refusal :=
  if !produceGate s then .next (answer .badState .none s)
  else if s.fcen = false then .next (txRawFrame s)
  else if s.txlen < Config.SF_LIMIT then .next (txSingleFrame s)
  else if s.txprog = 0 then .next (txFirstFrame s)
  else if s.txprog < s.txlen then .next (txConsecutiveFrame s)
  else .next (txNothing s)

/-- PRODUCE_FC (R130). -/
def execProduceFc (s : State) : Host.Outcome State Fault Refusal :=
  if s.state = .sendFlowControl then .next (txFlowControl s) else .next (answer .badState .none s)

/-- A branch of PRODUCE_NEXT taken by itself: the gate of R121 first, then the branch where its
condition holds. Elsewhere the block cannot take it (assumption 7). -/
def takeBranch (selected : Bool) (effect : State) (s : State) : Host.Outcome State Fault Refusal :=
  if !produceGate s then .next (answer .badState .none s)
  else if selected then .next effect
  else .refused .branchNotSelected

/-- TX_RAW (R122). -/
def execTxRaw (s : State) : Host.Outcome State Fault Refusal :=
  takeBranch (selectsRaw s) (txRawFrame s) s

/-- TX_SF (R123). -/
def execTxSf (s : State) : Host.Outcome State Fault Refusal :=
  takeBranch (selectsSingle s) (txSingleFrame s) s

/-- TX_FF (R124). -/
def execTxFf (s : State) : Host.Outcome State Fault Refusal :=
  takeBranch (selectsFirst s) (txFirstFrame s) s

/-- TX_CF (R125). -/
def execTxCf (s : State) : Host.Outcome State Fault Refusal :=
  takeBranch (selectsConsecutive s) (txConsecutiveFrame s) s

/-- TX_NONE (R126). -/
def execTxNone (s : State) : Host.Outcome State Fault Refusal :=
  takeBranch (selectsNothing s) (txNothing s) s

/-- TX_FC: the frame of PRODUCE_FC behind its gate (R130, R131). -/
def execTxFc (s : State) : Host.Outcome State Fault Refusal :=
  match s.state with
  | .sendFlowControl => .next (txFlowControl s)
  | _ => .next (answer .badState .none s)

end Sys2Proof.Machine
end

