-- ==== Sys2Proof/Machine/Dispatch.lean ====
section
/-! DEFINITION. What each row of the opcode table does: one arm per constructor of `Instr`. -/

namespace Sys2Proof.Machine

def exec (i : Instr) (s : State) : Host.Outcome State Fault Refusal :=
  match i with
  | .decode raw => Sys2Proof.Machine.execDecode raw s
  | .encExt pri arb snd => Sys2Proof.Machine.execEncExt pri arb snd s
  | .encStd arb => Sys2Proof.Machine.execEncStd arb s
  | .load tidin await fcen payload => Sys2Proof.Machine.execLoad tidin await fcen payload s
  | .produceNext => Sys2Proof.Machine.execProduceNext s
  | .produceFc => Sys2Proof.Machine.execProduceFc s
  | .consume rxid rxd => Sys2Proof.Machine.execConsume rxid rxd s
  | .readStatus => Sys2Proof.Machine.execReadStatus s
  | .readRx index => Sys2Proof.Machine.execReadRx index s
  | .reservedOp header => Sys2Proof.Machine.execReservedOp header s
  | .idStd arb => Sys2Proof.Machine.execIdStd arb s
  | .idExt pad pri arb snd => Sys2Proof.Machine.execIdExt pad pri arb snd s
  | .rxSf rxid len tail => Sys2Proof.Machine.execRxSf rxid len tail s
  | .rxFf rxid lenHi tail => Sys2Proof.Machine.execRxFf rxid lenHi tail s
  | .rxCf rxid sn tail => Sys2Proof.Machine.execRxCf rxid sn tail s
  | .rxFc rxid fs tail => Sys2Proof.Machine.execRxFc rxid fs tail s
  | .rxRsvd47 rxid low tail => Sys2Proof.Machine.execRxRsvd47 rxid low tail s
  | .rxRsvd8F rxid low tail => Sys2Proof.Machine.execRxRsvd8F rxid low tail s
  | .txRaw => Sys2Proof.Machine.execTxRaw s
  | .txSf => Sys2Proof.Machine.execTxSf s
  | .txFf => Sys2Proof.Machine.execTxFf s
  | .txCf => Sys2Proof.Machine.execTxCf s
  | .txNone => Sys2Proof.Machine.execTxNone s
  | .txFc => Sys2Proof.Machine.execTxFc s

end Sys2Proof.Machine
end

