-- ==== Sys2Proof/Machine/Step.lean ====
section
/-! DEFINITION. One step: the block takes the oldest event presented to it and carries it out whole
(R8, R59, R63). -/

namespace Sys2Proof.Machine

/-- One step. A command is decoded and executed (R70); an illegal header is an instruction too
(R175). A reset sets the registers (R210). Without an event nothing happens (R8). -/
def step (s : State) : Host.Outcome State Fault Refusal :=
  match takeInput s with
  | none => .next s
  | some (.reset, t) => .next (resetEvent t)
  | some (.command c, t) =>
    match decode (.cmd c) with
    | .ok i => exec i t
    | .error e => .refused (.malformedTransaction e)

/-- The state with a table word presented as the next command (assumption 6). -/
def State.withFetchWord (s : State) (nbits w : Nat) : State :=
  present (.command (tableTransaction nbits w)) s

end Sys2Proof.Machine
end

