-- ==== Sys2Proof/Laws/Encoding.lean ====
section
/-! SUPPORT. The fields of an encoded word: what the decoder's slices read from what the encoder packs. -/

namespace Sys2Proof

/-! ## Headers (R71) -/

/-- The bits of an encoded header, field by field. -/
theorem getLsbD_encodeHeader (n : BitVec 12) (f a : Bool) (op : BitVec 4) (i : Nat) :
    (encodeHeader n f a op).getLsbD i =
      if i < 4 then op.getLsbD i
      else if i < 5 then a
      else if i < 6 then f
      else if i < 8 then false
      else n.getLsbD (i - 8) := by
  simp only [encodeHeader, BitVec.getLsbD_append]
  by_cases h4 : i < 4
  · rw [if_pos h4, if_pos h4]
  by_cases h5 : i < 5
  · rw [if_neg h4, if_pos (by omega), if_neg h4, if_pos h5, show i - 4 = 0 by omega]
    cases a <;> rfl
  by_cases h6 : i < 6
  · rw [if_neg h4, if_neg (by omega), if_pos (by omega), if_neg h4, if_neg h5, if_pos h6,
      show i - 4 - 1 = 0 by omega]
    cases f <;> rfl
  rw [if_neg h4, if_neg (by omega), if_neg (by omega), if_neg h4, if_neg h5, if_neg h6]
  by_cases h8 : i < 8
  · rw [if_pos (by omega), if_pos h8]
    simp
  rw [if_neg (by omega), if_neg h8, show i - 4 - 1 - 1 - 2 = i - 8 by omega]
  by_cases h20 : i - 8 < 12
  · rw [if_pos h20]
  · rw [if_neg h20, BitVec.getLsbD_of_ge n _ (by omega)]
    simp

theorem headerOp_encodeHeader (n : BitVec 12) (f a : Bool) (op : BitVec 4) :
    headerOp (encodeHeader n f a op) = op := by
  apply BitVec.eq_of_getLsbD_eq
  intro i hi
  simp [headerOp, -BitVec.getLsbD_eq_getElem, getLsbD_encodeHeader, hi]

theorem headerA_encodeHeader (n : BitVec 12) (f a : Bool) (op : BitVec 4) :
    headerA (encodeHeader n f a op) = a := by
  rw [headerA, getLsbD_encodeHeader]; rfl

theorem headerF_encodeHeader (n : BitVec 12) (f a : Bool) (op : BitVec 4) :
    headerF (encodeHeader n f a op) = f := by
  rw [headerF, getLsbD_encodeHeader]; rfl

theorem headerReservedLow_encodeHeader (n : BitVec 12) (f a : Bool) (op : BitVec 4) :
    headerReservedLow (encodeHeader n f a op) = 0 := by
  apply BitVec.eq_of_getLsbD_eq
  intro i hi
  rw [headerReservedLow, BitVec.getLsbD_extractLsb', getLsbD_encodeHeader, if_neg (by omega),
    if_neg (by omega), if_neg (by omega), if_pos (by omega)]
  simp

theorem headerN_encodeHeader (n : BitVec 12) (f a : Bool) (op : BitVec 4) :
    headerN (encodeHeader n f a op) = n := by
  apply BitVec.eq_of_getLsbD_eq
  intro i hi
  rw [headerN, BitVec.getLsbD_extractLsb', getLsbD_encodeHeader, if_neg (by omega),
    if_neg (by omega), if_neg (by omega), if_neg (by omega), Nat.add_sub_cancel_left]
  simp [hi]

theorem headerReservedHigh_encodeHeader (n : BitVec 12) (f a : Bool) (op : BitVec 4) :
    headerReservedHigh (encodeHeader n f a op) = 0 := by
  apply BitVec.eq_of_getLsbD_eq
  intro i hi
  rw [headerReservedHigh, BitVec.getLsbD_extractLsb', getLsbD_encodeHeader, if_neg (by omega),
    if_neg (by omega), if_neg (by omega), if_neg (by omega), BitVec.getLsbD_of_ge n _ (by omega)]
  simp

/-- A header the encoder writes for LOAD is legal whatever its fields. -/
theorem encodeHeader_load_legal (n : BitVec 12) (f a : Bool) :
    illegalHeader (encodeHeader n f a 0x4) = false := by
  simp [illegalHeader, headerOp_encodeHeader, headerReservedHigh_encodeHeader,
    headerReservedLow_encodeHeader]

/-- A header the encoder writes for READ_RX is legal whatever its index. -/
theorem encodeHeader_readRx_legal (n : BitVec 12) :
    illegalHeader (encodeHeader n false false 0x9) = false := by
  simp [illegalHeader, headerOp_encodeHeader, headerReservedHigh_encodeHeader,
    headerReservedLow_encodeHeader, headerA_encodeHeader, headerF_encodeHeader]

/-- A header whose reserved bits are zero is its fields. -/
theorem header_eq {h : Word} (hi : headerReservedHigh h = 0) (lo : headerReservedLow h = 0) :
    h = encodeHeader (headerN h) (headerF h) (headerA h) (headerOp h) := by
  have hi : ∀ i < 12, h.getLsbD (20 + i) = false := by
    intro i hlt
    have := congrArg (·.getLsbD i) hi
    simpa [headerReservedHigh, -BitVec.getLsbD_eq_getElem, hlt] using this
  have lo : ∀ i < 2, h.getLsbD (6 + i) = false := by
    intro i hlt
    have := congrArg (·.getLsbD i) lo
    simpa [headerReservedLow, -BitVec.getLsbD_eq_getElem, hlt] using this
  apply BitVec.eq_of_getLsbD_eq
  intro i hlt
  rw [getLsbD_encodeHeader]
  split
  · simp [headerOp, -BitVec.getLsbD_eq_getElem, *]
  split
  · rw [headerA, show i = 4 by omega]
  split
  · rw [headerF, show i = 5 by omega]
  split
  · rw [show i = 6 + (i - 6) by omega, lo _ (by omega)]
  · by_cases h20 : i - 8 < 12
    · rw [headerN, BitVec.getLsbD_extractLsb', show 8 + (i - 8) = i by omega]
      simp [h20]
    · rw [show i = 20 + (i - 20) by omega, hi _ (by omega), BitVec.getLsbD_of_ge _ _ (by omega)]

theorem headerOp_toNat (h : Word) : (headerOp h).toNat = h.toNat % 16 := by
  simp [headerOp, BitVec.extractLsb'_toNat]

theorem headerN_toNat (h : Word) : (headerN h).toNat = h.toNat / 2 ^ 8 % 4096 := by
  simp only [headerN, BitVec.extractLsb'_toNat, Nat.shiftRight_eq_div_pow]

theorem headerReservedHigh_toNat (h : Word) :
    (headerReservedHigh h).toNat = h.toNat / 2 ^ 20 := by
  have := h.isLt
  simp only [headerReservedHigh, BitVec.extractLsb'_toNat, Nat.shiftRight_eq_div_pow]
  omega

theorem headerReservedLow_toNat (h : Word) :
    (headerReservedLow h).toNat = h.toNat / 2 ^ 6 % 4 := by
  simp only [headerReservedLow, BitVec.extractLsb'_toNat, Nat.shiftRight_eq_div_pow]

theorem headerFA_eq_true (h : Word) :
    (headerF h = true ∨ headerA h = true) ↔ h.toNat / 2 ^ 4 % 4 ≠ 0 := by
  simp only [headerF, headerA, BitVec.getLsbD, Nat.testBit_eq_decide_div_mod_eq,
    decide_eq_true_eq]
  omega

/-- What makes a header illegal, by its value (R71, R86). -/
theorem illegalHeader_iff (h : Word) :
    illegalHeader h = true ↔
      h.toNat % 16 = 0 ∨ 10 ≤ h.toNat % 16 ∨ h.toNat / 2 ^ 20 ≠ 0 ∨ h.toNat / 2 ^ 6 % 4 ≠ 0 ∨
        (h.toNat % 16 ≠ 4 ∧ h.toNat % 16 ≠ 9 ∧ h.toNat / 2 ^ 8 % 4096 ≠ 0) ∨
        (h.toNat % 16 ≠ 4 ∧ h.toNat / 2 ^ 4 % 4 ≠ 0) := by
  have hA : (0xA : BitVec 4).toNat = 10 := rfl
  have h0 : (0x0 : BitVec 4).toNat = 0 := rfl
  have h4 : (0x4 : BitVec 4).toNat = 4 := rfl
  have h9 : (0x9 : BitVec 4).toNat = 9 := rfl
  have n0 : (0 : BitVec 12).toNat = 0 := rfl
  have l0 : (0 : BitVec 2).toNat = 0 := rfl
  simp only [illegalHeader, Bool.or_eq_true, Bool.and_eq_true, decide_eq_true_eq, beq_iff_eq,
    bne_iff_ne, ne_eq, BitVec.le_def, ← BitVec.toNat_inj, headerFA_eq_true, headerOp_toNat,
    headerN_toNat, headerReservedHigh_toNat, headerReservedLow_toNat, hA, h0, h4, h9, n0, l0]
  omega

/-! ## Identifiers (R75, R76) -/

theorem idStd_lt (arb : BitVec 11) : (0#21 ++ arb : Word) < Config.STD_LIMIT := by
  have h : arb.toNat < 2048 := arb.isLt
  have h1 : Config.STD_LIMIT.toNat = 2048 := rfl
  rw [BitVec.lt_def, BitVec.toNat_append, h1]
  simpa using h

theorem idStd_arb (arb : BitVec 11) : (0#21 ++ arb : Word).extractLsb' 0 11 = arb :=
  BitVec.extractLsb'_append_eq_right

theorem extWord_snd (pad pri : BitVec 3) (arb snd : BitVec 13) :
    (extWord pad pri arb snd).extractLsb' 0 13 = snd :=
  BitVec.extractLsb'_append_eq_right

theorem extWord_arb (pad pri : BitVec 3) (arb snd : BitVec 13) :
    (extWord pad pri arb snd).extractLsb' 13 13 = arb := by
  apply BitVec.eq_of_getLsbD_eq
  intro i hi
  simp only [extWord, BitVec.getLsbD_extractLsb', BitVec.getLsbD_append]
  rw [if_neg (by omega), if_pos (by omega)]
  simp only [hi, decide_true, Bool.true_and]
  congr 1
  omega

theorem extWord_pri (pad pri : BitVec 3) (arb snd : BitVec 13) :
    (extWord pad pri arb snd).extractLsb' 26 3 = pri := by
  apply BitVec.eq_of_getLsbD_eq
  intro i hi
  simp only [extWord, BitVec.getLsbD_extractLsb', BitVec.getLsbD_append]
  rw [if_neg (by omega), if_neg (by omega), if_pos (by omega)]
  simp only [hi, decide_true, Bool.true_and]
  congr 1
  omega

theorem extWord_pad (pad pri : BitVec 3) (arb snd : BitVec 13) :
    (extWord pad pri arb snd).extractLsb' 29 3 = pad := by
  apply BitVec.eq_of_getLsbD_eq
  intro i hi
  simp only [extWord, BitVec.getLsbD_extractLsb', BitVec.getLsbD_append]
  rw [if_neg (by omega), if_neg (by omega), if_neg (by omega)]
  simp only [hi, decide_true, Bool.true_and]
  congr 1
  omega

/-! ## Frames (R78, R79) -/

@[simp] theorem pci_append (p n : BitVec 4) (t : FrameTail) : (⟨p ++ n, t⟩ : Frame).pci = p :=
  BitVec.extractLsb'_append_eq_left

@[simp] theorem nibble_append (p n : BitVec 4) (t : FrameTail) :
    (⟨p ++ n, t⟩ : Frame).nibble = n :=
  BitVec.extractLsb'_append_eq_right

/-- A frame is its PCI, the PCI's parameter and its other bytes. -/
theorem frame_eq (d : Frame) : d = ⟨d.pci ++ d.nibble, d.tail⟩ := by
  have h : ∀ b : Byte, b.extractLsb' 4 4 ++ b.extractLsb' 0 4 = b := by decide
  cases d
  simp only [Frame.pci, Frame.nibble, h]

end Sys2Proof
end

