-- ==== Sys2Proof/Safety.lean ====
section
/-! DEFINITION. What holds of the block in every run, and the relations between states the claims
speak of. -/

namespace Sys2Proof.Machine

/-- The invariants of R33, with what the buffers need: their canonical form, and a value in every byte
a command may read (R52, R53, R56). Items 3 and 5 of R33 hold by the types of `SEQ` and `STATE`. -/
structure Inv (s : State) : Prop where
  /-- `TXBUF` is in canonical form. -/
  txWf : s.txbuf.wf Config.TX_CAP
  /-- `RXBUF` is in canonical form. -/
  rxWf : s.rxbuf.wf Config.RX_CAP
  /-- R33 item 1. -/
  progress : s.txprog ≤ s.txlen
  /-- R33 item 2. -/
  bounded : s.rxlv = true → s.rxcnt ≤ s.rxlen
  /-- R33 item 4. -/
  unknown : s.rxlv = false → s.rxcnt = 0 ∧ s.rxlen = 0
  /-- Every payload byte was written by LOAD. -/
  txHeld : ∀ i < s.txlen.toNat, (s.txbuf.read i).isSome
  /-- Every reassembled byte was written by CONSUME. -/
  rxHeld : ∀ i < s.rxcnt.toNat, (s.rxbuf.read i).isSome

/-- The transfer sends its payload in segments: flow control enabled and 8 bytes or more (R124). -/
def segmented (s : State) : Prop := s.fcen = true ∧ Config.SF_LIMIT ≤ s.txlen

/-- What each state of the transfer says about the counts (R26, R36), and how the sequence counter
follows the progress (R30, R124, R125). -/
structure Phases (s : State) : Prop where
  /-- In `READY` nothing was sent or received. -/
  ready : s.state = .ready → s.txprog = 0 ∧ s.seq = 0 ∧ s.rxlv = false
  /-- In `AWAITING_FLOW_CONTROL` exactly the First Frame was sent. -/
  awaitingFlowControl : s.state = .awaitingFlowControl → segmented s ∧ s.txprog = 6
  /-- In `SENDING` a segmented transfer has begun. -/
  sending : s.state = .sending → segmented s → s.txprog ≠ 0
  /-- In every other state a segmented transfer has sent all of its payload. -/
  sent : s.state = .awaitingReply ∨ s.state = .sendFlowControl ∨ s.state = .completed ∨
    s.state = .error → segmented s → s.txprog = s.txlen
  /-- In `SEND_FLOW_CONTROL` exactly a First Frame's bytes are held. -/
  sendFlowControl : s.state = .sendFlowControl → s.rxlv = true ∧ s.rxcnt = 6 ∧ 6 ≤ s.rxlen
  /-- In `ERROR` an unsegmented frame's bytes are held (R193). -/
  error : s.state = .error →
    s.rxlv = true ∧ s.rxlen.toNat ≤ 15 ∧ s.rxcnt.toNat = min s.rxlen.toNat 7
  /-- An unsegmented transfer never counts. -/
  seqRest : ¬ segmented s → s.seq = 0
  /-- A segmented transfer's counter is the number of Consecutive Frames sent, mod 16. -/
  seqCount : segmented s → s.seq.toNat = s.txprog.toNat / 7 % 16
  /-- Between its first and its last frame a segmented transfer has sent 6 + 7k bytes. -/
  boundary : segmented s → s.txprog ≠ 0 → s.txprog < s.txlen → s.txprog.toNat % 7 = 6

/-- What the host presented is a command of the interface (R73), or a reset. -/
def Input.wellFormed : Input → Bool
  | .reset => true
  | .command c =>
    match decode (.cmd c) with
    | .ok _ => true
    | .error _ => false

/-- Every event at the port is well-formed. -/
abbrev PortWf (s : State) : Prop := ∀ e ∈ s.port, e.wellFormed = true

/-- The results each row of the table may return: the statuses of R191 and, with each, the fields of
R74. -/
def mayAnswer : Instr → Result → Bool
  | .decode _, ⟨.ok, .standardId _⟩ => true
  | .decode _, ⟨.ok, .extendedId _ _ _⟩ => true
  | .idStd _, ⟨.ok, .standardId _⟩ => true
  | .idExt _ _ _ _, ⟨.ok, .extendedId _ _ _⟩ => true
  | .encExt _ _ _, ⟨.ok, .word _⟩ => true
  | .encStd _, ⟨.ok, .word _⟩ => true
  | .load _ _ _ _, ⟨.ok, .none⟩ => true
  | .load _ _ _ _, ⟨.badArg, .none⟩ => true
  | .produceNext, ⟨.ok, .frame _ _ _⟩ => true
  | .produceNext, ⟨.nothingToSend, .none⟩ => true
  | .produceNext, ⟨.badState, .none⟩ => true
  | .txRaw, ⟨.ok, .frame _ _ _⟩ => true
  | .txRaw, ⟨.badState, .none⟩ => true
  | .txSf, ⟨.ok, .frame _ _ _⟩ => true
  | .txSf, ⟨.badState, .none⟩ => true
  | .txFf, ⟨.ok, .frame _ _ _⟩ => true
  | .txFf, ⟨.badState, .none⟩ => true
  | .txCf, ⟨.ok, .frame _ _ _⟩ => true
  | .txCf, ⟨.badState, .none⟩ => true
  | .txNone, ⟨.nothingToSend, .none⟩ => true
  | .txNone, ⟨.badState, .none⟩ => true
  | .produceFc, ⟨.ok, .frame _ _ _⟩ => true
  | .produceFc, ⟨.badState, .none⟩ => true
  | .txFc, ⟨.ok, .frame _ _ _⟩ => true
  | .txFc, ⟨.badState, .none⟩ => true
  | .consume _ _, ⟨.ok, .none⟩ => true
  | .consume _ _, ⟨.ignored, .none⟩ => true
  | .consume _ _, ⟨.pending, .none⟩ => true
  | .rxSf _ _ _, ⟨.ok, .none⟩ => true
  | .rxSf _ _ _, ⟨.ignored, .none⟩ => true
  | .rxSf _ _ _, ⟨.pending, .none⟩ => true
  | .rxFf _ _ _, ⟨.ok, .none⟩ => true
  | .rxFf _ _ _, ⟨.ignored, .none⟩ => true
  | .rxCf _ _ _, ⟨.ok, .none⟩ => true
  | .rxCf _ _ _, ⟨.ignored, .none⟩ => true
  | .rxFc _ _ _, ⟨.ok, .none⟩ => true
  | .rxFc _ _ _, ⟨.ignored, .none⟩ => true
  | .rxRsvd47 _ _ _, ⟨.ignored, .none⟩ => true
  | .rxRsvd8F _ _ _, ⟨.ignored, .none⟩ => true
  | .readStatus, ⟨.ok, .registers _⟩ => true
  | .readRx _, ⟨.ok, .byte _⟩ => true
  | .readRx _, ⟨.badArg, .none⟩ => true
  | .reservedOp _, ⟨.illegal, .none⟩ => true
  | _, _ => false

/-- The table of R36 as a function: the state of the transfer after a command. -/
def transitionMap (i : Instr) (s : State) : XferState :=
  let post := if s.await then XferState.awaitingReply else XferState.completed
  match i with
  | .load tidin _ _ _ => if tidin.toNat < 0x800 then .ready else s.state
  | .produceNext =>
    if s.state = .ready ∨ s.state = .sending then
      if s.fcen = false ∨ s.txlen.toNat < 8 then post
      else if s.txprog.toNat = 0 then .awaitingFlowControl
      else if s.txprog.toNat + 7 < s.txlen.toNat then s.state
      else post
    else s.state
  | .produceFc => if s.state = .sendFlowControl then .awaitingReply else s.state
  | .consume rxid d =>
    let pci := d.d0.toNat / 16
    let len := d.d0.toNat % 16 * 256 + d.tail.d1.toNat
    if rxid.toNat % 256 = s.tid.toNat % 256 then
      if s.state = .awaitingFlowControl ∧ pci = 3 then .sending
      else if s.state = .awaitingReply then
        if pci = 0 then
          if d.tail.d1 = s.params.negSid then
            if nrcByte s.params.nrcIndex d.tail = s.params.nrcPending then .awaitingReply
            else .error
          else .completed
        else if pci = 1 then if len < 6 then .completed else .sendFlowControl
        else if pci = 2 then
          if s.rxlv = true ∧ s.rxcnt.toNat ≤ s.rxlen.toNat ∧ s.rxlen.toNat ≤ s.rxcnt.toNat + 7 then
            .completed
          else .awaitingReply
        else if pci = 3 then .sending
        else .awaitingReply
      else s.state
    else s.state
  | _ => s.state

/-- Two states that agree on every register and on every byte below the buffers' counts; the bytes
above them may differ (R56). -/
structure SameBelowCounts (s t : State) : Prop where
  /-- Everything but the buffers is the same. -/
  registers : { s with txbuf := t.txbuf, rxbuf := t.rxbuf } = t
  /-- The payload bytes are the same. -/
  payload : ∀ i < s.txlen.toNat, txByte s i = txByte t i
  /-- The reassembled bytes are the same. -/
  reassembled : ∀ i < s.rxcnt.toNat, rxByte s i = rxByte t i

/-- A sender in the middle of a segmented payload and the receiver that has taken in what was sent so
far: the receiver holds the sender's first `TXPROG` bytes and expects `TXLEN`. -/
structure Lockstep (sender receiver : State) : Prop where
  segmented : segmented sender
  sending : sender.state = .sending
  begun : sender.txprog ≠ 0
  unfinished : sender.txprog < sender.txlen
  awaiting : receiver.state = .awaitingReply
  declared : receiver.rxlv = true ∧ receiver.rxlen = sender.txlen
  received : receiver.rxcnt = sender.txprog
  copied : ∀ i < sender.txprog.toNat, rxByte receiver i = txByte sender i
  addressed : sender.tid.extractLsb' 0 8 = receiver.tid.extractLsb' 0 8

/-- One segment carried from a sender to a receiver: the sender's next frame is the receiver's next
received frame (R64, R214). -/
def carrySegment (p : State × State) : State × State :=
  match exec .produceNext p.1 with
  | .next sender =>
    match sender.result with
    | some ⟨.ok, .frame fid _ d⟩ =>
      match exec (.consume fid d) p.2 with
      | .next receiver => (sender, receiver)
      | .fault _ => p
      | .refused _ => p
    | _ => p
  | .fault _ => p
  | .refused _ => p

/-- Several segments carried one after the other. -/
def carrySegments : Nat → State × State → State × State
  | 0, p => p
  | n + 1, p => carrySegments n (carrySegment p)

end Sys2Proof.Machine
end

