-- ==== Sys2Proof/Laws/State.lean ====
section
/-! SUPPORT. One lemma per field per update, and the equations of the derived reads, so that no proof
unfolds a record update. -/

namespace Sys2Proof.Machine

/-! ## `answer` -/

@[simp] theorem answer_tid (st : Status) (f : Fields) (s : State) : (answer st f s).tid = s.tid := rfl
@[simp] theorem answer_txlen (st : Status) (f : Fields) (s : State) : (answer st f s).txlen = s.txlen := rfl
@[simp] theorem answer_txbuf (st : Status) (f : Fields) (s : State) : (answer st f s).txbuf = s.txbuf := rfl
@[simp] theorem answer_rxcnt (st : Status) (f : Fields) (s : State) : (answer st f s).rxcnt = s.rxcnt := rfl
@[simp] theorem answer_rxbuf (st : Status) (f : Fields) (s : State) : (answer st f s).rxbuf = s.rxbuf := rfl
@[simp] theorem answer_state (st : Status) (f : Fields) (s : State) : (answer st f s).state = s.state := rfl
@[simp] theorem answer_txprog (st : Status) (f : Fields) (s : State) : (answer st f s).txprog = s.txprog := rfl
@[simp] theorem answer_rxlen (st : Status) (f : Fields) (s : State) : (answer st f s).rxlen = s.rxlen := rfl
@[simp] theorem answer_rxlv (st : Status) (f : Fields) (s : State) : (answer st f s).rxlv = s.rxlv := rfl
@[simp] theorem answer_seq (st : Status) (f : Fields) (s : State) : (answer st f s).seq = s.seq := rfl
@[simp] theorem answer_await (st : Status) (f : Fields) (s : State) : (answer st f s).await = s.await := rfl
@[simp] theorem answer_fcen (st : Status) (f : Fields) (s : State) : (answer st f s).fcen = s.fcen := rfl
@[simp] theorem answer_params (st : Status) (f : Fields) (s : State) : (answer st f s).params = s.params := rfl
@[simp] theorem answer_port (st : Status) (f : Fields) (s : State) : (answer st f s).port = s.port := rfl
@[simp] theorem answer_result (st : Status) (f : Fields) (s : State) : (answer st f s).result = some ⟨st, f⟩ := rfl

/-! ## `emitFrame` -/

@[simp] theorem emitFrame_tid (d : Frame) (s : State) : (emitFrame d s).tid = s.tid := rfl
@[simp] theorem emitFrame_txlen (d : Frame) (s : State) : (emitFrame d s).txlen = s.txlen := rfl
@[simp] theorem emitFrame_txbuf (d : Frame) (s : State) : (emitFrame d s).txbuf = s.txbuf := rfl
@[simp] theorem emitFrame_rxcnt (d : Frame) (s : State) : (emitFrame d s).rxcnt = s.rxcnt := rfl
@[simp] theorem emitFrame_rxbuf (d : Frame) (s : State) : (emitFrame d s).rxbuf = s.rxbuf := rfl
@[simp] theorem emitFrame_state (d : Frame) (s : State) : (emitFrame d s).state = s.state := rfl
@[simp] theorem emitFrame_txprog (d : Frame) (s : State) : (emitFrame d s).txprog = s.txprog := rfl
@[simp] theorem emitFrame_rxlen (d : Frame) (s : State) : (emitFrame d s).rxlen = s.rxlen := rfl
@[simp] theorem emitFrame_rxlv (d : Frame) (s : State) : (emitFrame d s).rxlv = s.rxlv := rfl
@[simp] theorem emitFrame_seq (d : Frame) (s : State) : (emitFrame d s).seq = s.seq := rfl
@[simp] theorem emitFrame_await (d : Frame) (s : State) : (emitFrame d s).await = s.await := rfl
@[simp] theorem emitFrame_fcen (d : Frame) (s : State) : (emitFrame d s).fcen = s.fcen := rfl
@[simp] theorem emitFrame_params (d : Frame) (s : State) : (emitFrame d s).params = s.params := rfl
@[simp] theorem emitFrame_port (d : Frame) (s : State) : (emitFrame d s).port = s.port := rfl
@[simp] theorem emitFrame_result (d : Frame) (s : State) : (emitFrame d s).result = some ⟨.ok, .frame (encodeStandard (s.tid.setWidth 32)) 0 d⟩ := rfl

/-! ## `rxClear` -/

@[simp] theorem rxClear_tid (s : State) : (rxClear s).tid = s.tid := rfl
@[simp] theorem rxClear_txlen (s : State) : (rxClear s).txlen = s.txlen := rfl
@[simp] theorem rxClear_txbuf (s : State) : (rxClear s).txbuf = s.txbuf := rfl
@[simp] theorem rxClear_rxcnt (s : State) : (rxClear s).rxcnt = 0 := rfl
@[simp] theorem rxClear_rxbuf (s : State) : (rxClear s).rxbuf = s.rxbuf := rfl
@[simp] theorem rxClear_state (s : State) : (rxClear s).state = s.state := rfl
@[simp] theorem rxClear_txprog (s : State) : (rxClear s).txprog = s.txprog := rfl
@[simp] theorem rxClear_rxlen (s : State) : (rxClear s).rxlen = s.rxlen := rfl
@[simp] theorem rxClear_rxlv (s : State) : (rxClear s).rxlv = s.rxlv := rfl
@[simp] theorem rxClear_seq (s : State) : (rxClear s).seq = s.seq := rfl
@[simp] theorem rxClear_await (s : State) : (rxClear s).await = s.await := rfl
@[simp] theorem rxClear_fcen (s : State) : (rxClear s).fcen = s.fcen := rfl
@[simp] theorem rxClear_params (s : State) : (rxClear s).params = s.params := rfl
@[simp] theorem rxClear_port (s : State) : (rxClear s).port = s.port := rfl
@[simp] theorem rxClear_result (s : State) : (rxClear s).result = s.result := rfl

/-! ## `rxAppend` -/

@[simp] theorem rxAppend_tid (v : Byte) (s : State) : (rxAppend v s).tid = s.tid := rfl
@[simp] theorem rxAppend_txlen (v : Byte) (s : State) : (rxAppend v s).txlen = s.txlen := rfl
@[simp] theorem rxAppend_txbuf (v : Byte) (s : State) : (rxAppend v s).txbuf = s.txbuf := rfl
@[simp] theorem rxAppend_rxcnt (v : Byte) (s : State) : (rxAppend v s).rxcnt = s.rxcnt + 1 := rfl
@[simp] theorem rxAppend_rxbuf (v : Byte) (s : State) : (rxAppend v s).rxbuf = s.rxbuf.write s.rxcnt.toNat v := rfl
@[simp] theorem rxAppend_state (v : Byte) (s : State) : (rxAppend v s).state = s.state := rfl
@[simp] theorem rxAppend_txprog (v : Byte) (s : State) : (rxAppend v s).txprog = s.txprog := rfl
@[simp] theorem rxAppend_rxlen (v : Byte) (s : State) : (rxAppend v s).rxlen = s.rxlen := rfl
@[simp] theorem rxAppend_rxlv (v : Byte) (s : State) : (rxAppend v s).rxlv = s.rxlv := rfl
@[simp] theorem rxAppend_seq (v : Byte) (s : State) : (rxAppend v s).seq = s.seq := rfl
@[simp] theorem rxAppend_await (v : Byte) (s : State) : (rxAppend v s).await = s.await := rfl
@[simp] theorem rxAppend_fcen (v : Byte) (s : State) : (rxAppend v s).fcen = s.fcen := rfl
@[simp] theorem rxAppend_params (v : Byte) (s : State) : (rxAppend v s).params = s.params := rfl
@[simp] theorem rxAppend_port (v : Byte) (s : State) : (rxAppend v s).port = s.port := rfl
@[simp] theorem rxAppend_result (v : Byte) (s : State) : (rxAppend v s).result = s.result := rfl

/-! ## `rxDeclare` -/

@[simp] theorem rxDeclare_tid (n : BitVec 12) (s : State) : (rxDeclare n s).tid = s.tid := rfl
@[simp] theorem rxDeclare_txlen (n : BitVec 12) (s : State) : (rxDeclare n s).txlen = s.txlen := rfl
@[simp] theorem rxDeclare_txbuf (n : BitVec 12) (s : State) : (rxDeclare n s).txbuf = s.txbuf := rfl
@[simp] theorem rxDeclare_rxcnt (n : BitVec 12) (s : State) : (rxDeclare n s).rxcnt = 0 := rfl
@[simp] theorem rxDeclare_rxbuf (n : BitVec 12) (s : State) : (rxDeclare n s).rxbuf = s.rxbuf := rfl
@[simp] theorem rxDeclare_state (n : BitVec 12) (s : State) : (rxDeclare n s).state = s.state := rfl
@[simp] theorem rxDeclare_txprog (n : BitVec 12) (s : State) : (rxDeclare n s).txprog = s.txprog := rfl
@[simp] theorem rxDeclare_rxlen (n : BitVec 12) (s : State) : (rxDeclare n s).rxlen = n := rfl
@[simp] theorem rxDeclare_rxlv (n : BitVec 12) (s : State) : (rxDeclare n s).rxlv = true := rfl
@[simp] theorem rxDeclare_seq (n : BitVec 12) (s : State) : (rxDeclare n s).seq = s.seq := rfl
@[simp] theorem rxDeclare_await (n : BitVec 12) (s : State) : (rxDeclare n s).await = s.await := rfl
@[simp] theorem rxDeclare_fcen (n : BitVec 12) (s : State) : (rxDeclare n s).fcen = s.fcen := rfl
@[simp] theorem rxDeclare_params (n : BitVec 12) (s : State) : (rxDeclare n s).params = s.params := rfl
@[simp] theorem rxDeclare_port (n : BitVec 12) (s : State) : (rxDeclare n s).port = s.port := rfl
@[simp] theorem rxDeclare_result (n : BitVec 12) (s : State) : (rxDeclare n s).result = s.result := rfl

/-! ## `present` -/

@[simp] theorem present_tid (e : Input) (s : State) : (present e s).tid = s.tid := rfl
@[simp] theorem present_txlen (e : Input) (s : State) : (present e s).txlen = s.txlen := rfl
@[simp] theorem present_txbuf (e : Input) (s : State) : (present e s).txbuf = s.txbuf := rfl
@[simp] theorem present_rxcnt (e : Input) (s : State) : (present e s).rxcnt = s.rxcnt := rfl
@[simp] theorem present_rxbuf (e : Input) (s : State) : (present e s).rxbuf = s.rxbuf := rfl
@[simp] theorem present_state (e : Input) (s : State) : (present e s).state = s.state := rfl
@[simp] theorem present_txprog (e : Input) (s : State) : (present e s).txprog = s.txprog := rfl
@[simp] theorem present_rxlen (e : Input) (s : State) : (present e s).rxlen = s.rxlen := rfl
@[simp] theorem present_rxlv (e : Input) (s : State) : (present e s).rxlv = s.rxlv := rfl
@[simp] theorem present_seq (e : Input) (s : State) : (present e s).seq = s.seq := rfl
@[simp] theorem present_await (e : Input) (s : State) : (present e s).await = s.await := rfl
@[simp] theorem present_fcen (e : Input) (s : State) : (present e s).fcen = s.fcen := rfl
@[simp] theorem present_params (e : Input) (s : State) : (present e s).params = s.params := rfl
@[simp] theorem present_port (e : Input) (s : State) : (present e s).port = e :: s.port := rfl
@[simp] theorem present_result (e : Input) (s : State) : (present e s).result = s.result := rfl

/-! ## Appends in a row -/

@[simp] theorem rxAppendAll_tid (l : List Byte) (s : State) :
    (rxAppendAll l s).tid = s.tid := by
  induction l generalizing s with
  | nil => rfl
  | cons v l ih => simp [rxAppendAll, ih]

@[simp] theorem rxAppendAll_txlen (l : List Byte) (s : State) :
    (rxAppendAll l s).txlen = s.txlen := by
  induction l generalizing s with
  | nil => rfl
  | cons v l ih => simp [rxAppendAll, ih]

@[simp] theorem rxAppendAll_txbuf (l : List Byte) (s : State) :
    (rxAppendAll l s).txbuf = s.txbuf := by
  induction l generalizing s with
  | nil => rfl
  | cons v l ih => simp [rxAppendAll, ih]

@[simp] theorem rxAppendAll_state (l : List Byte) (s : State) :
    (rxAppendAll l s).state = s.state := by
  induction l generalizing s with
  | nil => rfl
  | cons v l ih => simp [rxAppendAll, ih]

@[simp] theorem rxAppendAll_txprog (l : List Byte) (s : State) :
    (rxAppendAll l s).txprog = s.txprog := by
  induction l generalizing s with
  | nil => rfl
  | cons v l ih => simp [rxAppendAll, ih]

@[simp] theorem rxAppendAll_rxlen (l : List Byte) (s : State) :
    (rxAppendAll l s).rxlen = s.rxlen := by
  induction l generalizing s with
  | nil => rfl
  | cons v l ih => simp [rxAppendAll, ih]

@[simp] theorem rxAppendAll_rxlv (l : List Byte) (s : State) :
    (rxAppendAll l s).rxlv = s.rxlv := by
  induction l generalizing s with
  | nil => rfl
  | cons v l ih => simp [rxAppendAll, ih]

@[simp] theorem rxAppendAll_seq (l : List Byte) (s : State) :
    (rxAppendAll l s).seq = s.seq := by
  induction l generalizing s with
  | nil => rfl
  | cons v l ih => simp [rxAppendAll, ih]

@[simp] theorem rxAppendAll_await (l : List Byte) (s : State) :
    (rxAppendAll l s).await = s.await := by
  induction l generalizing s with
  | nil => rfl
  | cons v l ih => simp [rxAppendAll, ih]

@[simp] theorem rxAppendAll_fcen (l : List Byte) (s : State) :
    (rxAppendAll l s).fcen = s.fcen := by
  induction l generalizing s with
  | nil => rfl
  | cons v l ih => simp [rxAppendAll, ih]

@[simp] theorem rxAppendAll_params (l : List Byte) (s : State) :
    (rxAppendAll l s).params = s.params := by
  induction l generalizing s with
  | nil => rfl
  | cons v l ih => simp [rxAppendAll, ih]

@[simp] theorem rxAppendAll_port (l : List Byte) (s : State) :
    (rxAppendAll l s).port = s.port := by
  induction l generalizing s with
  | nil => rfl
  | cons v l ih => simp [rxAppendAll, ih]

@[simp] theorem rxAppendAll_result (l : List Byte) (s : State) :
    (rxAppendAll l s).result = s.result := by
  induction l generalizing s with
  | nil => rfl
  | cons v l ih => simp [rxAppendAll, ih]

@[simp] theorem rxAppendBounded_tid (l : List Byte) (s : State) :
    (rxAppendBounded l s).tid = s.tid := by
  induction l generalizing s with
  | nil => rfl
  | cons v l ih =>
    rw [rxAppendBounded]
    split <;> simp [ih]

@[simp] theorem rxAppendBounded_txlen (l : List Byte) (s : State) :
    (rxAppendBounded l s).txlen = s.txlen := by
  induction l generalizing s with
  | nil => rfl
  | cons v l ih =>
    rw [rxAppendBounded]
    split <;> simp [ih]

@[simp] theorem rxAppendBounded_txbuf (l : List Byte) (s : State) :
    (rxAppendBounded l s).txbuf = s.txbuf := by
  induction l generalizing s with
  | nil => rfl
  | cons v l ih =>
    rw [rxAppendBounded]
    split <;> simp [ih]

@[simp] theorem rxAppendBounded_state (l : List Byte) (s : State) :
    (rxAppendBounded l s).state = s.state := by
  induction l generalizing s with
  | nil => rfl
  | cons v l ih =>
    rw [rxAppendBounded]
    split <;> simp [ih]

@[simp] theorem rxAppendBounded_txprog (l : List Byte) (s : State) :
    (rxAppendBounded l s).txprog = s.txprog := by
  induction l generalizing s with
  | nil => rfl
  | cons v l ih =>
    rw [rxAppendBounded]
    split <;> simp [ih]

@[simp] theorem rxAppendBounded_rxlen (l : List Byte) (s : State) :
    (rxAppendBounded l s).rxlen = s.rxlen := by
  induction l generalizing s with
  | nil => rfl
  | cons v l ih =>
    rw [rxAppendBounded]
    split <;> simp [ih]

@[simp] theorem rxAppendBounded_rxlv (l : List Byte) (s : State) :
    (rxAppendBounded l s).rxlv = s.rxlv := by
  induction l generalizing s with
  | nil => rfl
  | cons v l ih =>
    rw [rxAppendBounded]
    split <;> simp [ih]

@[simp] theorem rxAppendBounded_seq (l : List Byte) (s : State) :
    (rxAppendBounded l s).seq = s.seq := by
  induction l generalizing s with
  | nil => rfl
  | cons v l ih =>
    rw [rxAppendBounded]
    split <;> simp [ih]

@[simp] theorem rxAppendBounded_await (l : List Byte) (s : State) :
    (rxAppendBounded l s).await = s.await := by
  induction l generalizing s with
  | nil => rfl
  | cons v l ih =>
    rw [rxAppendBounded]
    split <;> simp [ih]

@[simp] theorem rxAppendBounded_fcen (l : List Byte) (s : State) :
    (rxAppendBounded l s).fcen = s.fcen := by
  induction l generalizing s with
  | nil => rfl
  | cons v l ih =>
    rw [rxAppendBounded]
    split <;> simp [ih]

@[simp] theorem rxAppendBounded_params (l : List Byte) (s : State) :
    (rxAppendBounded l s).params = s.params := by
  induction l generalizing s with
  | nil => rfl
  | cons v l ih =>
    rw [rxAppendBounded]
    split <;> simp [ih]

@[simp] theorem rxAppendBounded_port (l : List Byte) (s : State) :
    (rxAppendBounded l s).port = s.port := by
  induction l generalizing s with
  | nil => rfl
  | cons v l ih =>
    rw [rxAppendBounded]
    split <;> simp [ih]

@[simp] theorem rxAppendBounded_result (l : List Byte) (s : State) :
    (rxAppendBounded l s).result = s.result := by
  induction l generalizing s with
  | nil => rfl
  | cons v l ih =>
    rw [rxAppendBounded]
    split <;> simp [ih]

end Sys2Proof.Machine
end

