-- ==== Sys2Proof/Laws/Memory.lean ====
section
/-! SUPPORT. The laws of the buffers: a read after a write, the canonical form kept by every write, and
equal reads giving equal buffers. -/

namespace Sys2Proof.Machine

/-! ## Reads after writes -/

theorem readCells_writeCells (l : List Host.Cell) (a : Nat) (v : Byte) (b : Nat) :
    readCells (writeCells l a v) b = if a = b then some v else readCells l b := by
  induction l with
  | nil => simp [writeCells, readCells]
  | cons c l ih =>
    obtain ⟨i, w⟩ := c
    by_cases hab : a = b
    · subst hab
      rw [writeCells]
      split
      · simp [readCells]
      · split
        · simp [readCells]
        · rename_i h1 h2
          simp only [readCells, ih, ↓reduceIte]
          rw [if_neg (fun h => h2 h.symm)]
    · rw [writeCells]
      split
      · simp [readCells, hab]
      · split
        · rename_i h2
          subst h2
          simp [readCells, hab]
        · simp only [readCells, ih, hab, ↓reduceIte]

/-- A read of the written index gives the byte; any other read is as before. -/
theorem read_write (m : Memory) (a : Nat) (v : Byte) (b : Nat) :
    (m.write a v).read b = if a = b then some v else m.read b :=
  readCells_writeCells m.cells a v b

@[simp] theorem read_write_same (m : Memory) (a : Nat) (v : Byte) :
    (m.write a v).read a = some v := by simp [read_write]

theorem read_write_other (m : Memory) {a b : Nat} (v : Byte) (h : a ≠ b) :
    (m.write a v).read b = m.read b := by simp [read_write, h]

theorem readCells_append (l k : List Host.Cell) (b : Nat) :
    readCells (l ++ k) b = (readCells l b).or (readCells k b) := by
  induction l with
  | nil => simp [readCells]
  | cons c l ih =>
    obtain ⟨i, v⟩ := c
    by_cases h : i = b <;> simp [readCells, h, ih]

theorem readCells_cellsFrom (p : List Byte) (a b : Nat) :
    readCells (cellsFrom a p) b = if a ≤ b then p[b - a]? else none := by
  induction p generalizing a with
  | nil => simp [cellsFrom, readCells]
  | cons v p ih =>
    simp only [cellsFrom, readCells, ih]
    by_cases h : a = b
    · simp [h]
    · by_cases h' : a ≤ b
      · have : b - a = (b - (a + 1)) + 1 := by omega
        rw [if_neg h, if_pos (by omega), if_pos h', this, List.getElem?_cons_succ]
      · rw [if_neg h, if_neg (by omega), if_neg h']

theorem readCells_filter (l : List Host.Cell) (n b : Nat) :
    readCells (l.filter (fun c => n ≤ c.1)) b = if n ≤ b then readCells l b else none := by
  induction l with
  | nil => simp [readCells]
  | cons c l ih =>
    obtain ⟨i, v⟩ := c
    by_cases hn : n ≤ i
    · rw [List.filter_cons_of_pos (by simpa using hn)]
      simp only [readCells, ih]
      by_cases h : i = b
      · subst h; simp [hn]
      · simp [h]
    · rw [List.filter_cons_of_neg (by simpa using hn)]
      simp only [readCells, ih]
      by_cases h : i = b
      · subst h; simp [hn]
      · simp [h]

/-- After a LOAD's write the payload's indices read the payload; the others are as before. -/
theorem read_writePayload (m : Memory) (p : List Byte) (b : Nat) :
    (m.writePayload p).read b = if b < p.length then p[b]? else m.read b := by
  simp only [Memory.writePayload, Memory.read, readCells_append, readCells_cellsFrom,
    readCells_filter, Nat.zero_le, ↓reduceIte, Nat.sub_zero]
  by_cases h : b < p.length
  · simp [h]
  · simp [h, Nat.le_of_not_lt h]

/-! ## The canonical form -/

theorem mem_writeCells {l : List Host.Cell} {a : Nat} {v : Byte} {c : Host.Cell}
    (h : c ∈ writeCells l a v) : c = (a, v) ∨ c ∈ l := by
  induction l with
  | nil => simpa [writeCells] using h
  | cons d l ih =>
    obtain ⟨i, w⟩ := d
    rw [writeCells] at h
    split at h
    · simpa using h
    · split at h
      · rcases List.mem_cons.1 h with h | h
        · exact .inl h
        · exact .inr (List.mem_cons_of_mem _ h)
      · rcases List.mem_cons.1 h with h | h
        · exact .inr (by simp [h])
        · rcases ih h with h | h
          · exact .inl h
          · exact .inr (List.mem_cons_of_mem _ h)

theorem writeCells_rising {l : List Host.Cell} (h : l.Pairwise (fun c d => c.1 < d.1)) (a : Nat)
    (v : Byte) : (writeCells l a v).Pairwise (fun c d => c.1 < d.1) := by
  induction l with
  | nil => simp [writeCells]
  | cons d l ih =>
    obtain ⟨i, w⟩ := d
    rw [List.pairwise_cons] at h
    rw [writeCells]
    split
    · rename_i hlt
      refine List.pairwise_cons.2 ⟨fun c hc => ?_, List.pairwise_cons.2 h⟩
      rcases List.mem_cons.1 hc with rfl | hc
      · exact hlt
      · exact Nat.lt_trans hlt (h.1 c hc)
    · split
      · rename_i heq
        subst heq
        exact List.pairwise_cons.2 h
      · refine List.pairwise_cons.2 ⟨fun c hc => ?_, ih h.2⟩
        rcases mem_writeCells hc with rfl | hc
        · simp only; omega
        · exact h.1 c hc

/-- A write inside the buffer keeps the canonical form. -/
theorem write_wf {cap : Nat} {m : Memory} (h : m.wf cap) {a : Nat} (ha : a < cap) (v : Byte) :
    (m.write a v).wf cap := by
  refine ⟨writeCells_rising h.1 a v, fun c hc => ?_⟩
  rcases mem_writeCells hc with rfl | hc
  · exact ha
  · exact h.2 c hc

theorem cellsFrom_bounds {a : Nat} {p : List Byte} {c : Host.Cell} (h : c ∈ cellsFrom a p) :
    a ≤ c.1 ∧ c.1 < a + p.length := by
  induction p generalizing a with
  | nil => simp [cellsFrom] at h
  | cons v p ih =>
    rcases List.mem_cons.1 h with rfl | h
    · simp
    · have := ih h
      simp only [List.length_cons]
      omega

theorem cellsFrom_rising (a : Nat) (p : List Byte) :
    (cellsFrom a p).Pairwise (fun c d => c.1 < d.1) := by
  induction p generalizing a with
  | nil => exact List.Pairwise.nil
  | cons v p ih =>
    refine List.pairwise_cons.2 ⟨fun c hc => ?_, ih (a + 1)⟩
    have := cellsFrom_bounds hc
    simp only
    omega

/-- LOAD's write of a payload that fits keeps the canonical form. -/
theorem writePayload_wf {cap : Nat} {m : Memory} (h : m.wf cap) {p : List Byte}
    (hp : p.length ≤ cap) : (m.writePayload p).wf cap := by
  refine ⟨List.pairwise_append.2 ⟨cellsFrom_rising 0 p, h.1.filter _, fun c hc d hd => ?_⟩,
    fun c hc => ?_⟩
  · have h1 := cellsFrom_bounds hc
    have h2 := (List.mem_filter.1 hd).2
    simp only [decide_eq_true_eq] at h2
    omega
  · rcases List.mem_append.1 hc with hc | hc
    · have := cellsFrom_bounds hc
      omega
    · exact h.2 c (List.mem_filter.1 hc).1

/-- The empty buffer is canonical. -/
theorem empty_wf (cap : Nat) : (⟨[]⟩ : Memory).wf cap := ⟨.nil, by simp⟩

theorem readCells_eq_some {l : List Host.Cell} (h : l.Pairwise (fun c d => c.1 < d.1)) {a : Nat}
    {v : Byte} : readCells l a = some v ↔ (a, v) ∈ l := by
  induction l with
  | nil => simp [readCells]
  | cons d l ih =>
    obtain ⟨i, w⟩ := d
    rw [List.pairwise_cons] at h
    by_cases hi : i = a
    · subst hi
      simp only [readCells, ↓reduceIte, List.mem_cons, Option.some.injEq, Prod.mk.injEq, true_and]
      refine ⟨fun hv => .inl hv.symm, fun hv => ?_⟩
      rcases hv with hv | hv
      · exact hv.symm
      · exact absurd (h.1 _ hv) (Nat.lt_irrefl _)
    · simp only [readCells, hi, ↓reduceIte, ih h.2, List.mem_cons, Prod.mk.injEq]
      exact ⟨.inr, fun hv => hv.resolve_left (fun e => hi e.1.symm)⟩

theorem cells_ext {l k : List Host.Cell} (hl : l.Pairwise (fun c d => c.1 < d.1))
    (hk : k.Pairwise (fun c d => c.1 < d.1)) (h : ∀ c, c ∈ l ↔ c ∈ k) : l = k := by
  induction l generalizing k with
  | nil =>
    cases k with
    | nil => rfl
    | cons d k => exact absurd ((h d).2 (List.mem_cons_self ..)) (by simp)
  | cons c l ih =>
    cases k with
    | nil => exact absurd ((h c).1 (List.mem_cons_self ..)) (by simp)
    | cons d k =>
      rw [List.pairwise_cons] at hl hk
      have hcd : c = d := by
        rcases List.mem_cons.1 ((h c).1 (List.mem_cons_self ..)) with e | hc
        · exact e
        · rcases List.mem_cons.1 ((h d).2 (List.mem_cons_self ..)) with e | hd
          · exact e.symm
          · exact absurd (Nat.lt_trans (hl.1 d hd) (hk.1 c hc)) (Nat.lt_irrefl _)
      subst hcd
      rw [ih hl.2 hk.2 fun e => ?_]
      have he := h e
      simp only [List.mem_cons] at he
      constructor
      · intro hm
        rcases he.1 (.inr hm) with rfl | hm'
        · exact absurd (hl.1 _ hm) (Nat.lt_irrefl _)
        · exact hm'
      · intro hm
        rcases he.2 (.inr hm) with rfl | hm'
        · exact absurd (hk.1 _ hm) (Nat.lt_irrefl _)
        · exact hm'

/-- Buffers in canonical form that read the same everywhere are the same data. -/
theorem memory_ext {cap : Nat} {m n : Memory} (hm : m.wf cap) (hn : n.wf cap)
    (h : ∀ a, m.read a = n.read a) : m = n := by
  cases m with
  | mk l =>
    cases n with
    | mk k =>
      congr
      refine cells_ext hm.1 hn.1 fun c => ?_
      obtain ⟨a, v⟩ := c
      rw [← readCells_eq_some hm.1, ← readCells_eq_some hn.1]
      exact iff_of_eq (congrArg (· = some v) (h a))

end Sys2Proof.Machine
end

