-- ==== Sys2Proof/Laws/Ops.lean ====
section
/-! SUPPORT. One spec lemma per shared operation: everything an append, a slice, a padded frame, a
branch of PRODUCE_NEXT or a frame kind of CONSUME can do. Callers cite these and do not unfold. -/

namespace Sys2Proof.Machine

/-! ## Appends -/

theorem rxAppend_rxcnt_toNat {v : Byte} {s : State} (h : s.rxcnt.toNat < 4095) :
    (rxAppend v s).rxcnt.toNat = s.rxcnt.toNat + 1 := by
  have h1 : (1 : BitVec 12).toNat = 1 := rfl
  rw [rxAppend_rxcnt, BitVec.toNat_add, h1]
  omega

/-- Appending `l` adds its length to `RXCNT`. -/
theorem rxAppendAll_rxcnt (l : List Byte) (s : State) :
    (rxAppendAll l s).rxcnt = s.rxcnt + BitVec.ofNat 12 l.length := by
  induction l generalizing s with
  | nil => simp [rxAppendAll]
  | cons v l ih =>
    rw [rxAppendAll, ih]
    have h1 : (1 : BitVec 12).toNat = 1 := rfl
    apply BitVec.eq_of_toNat_eq
    simp only [rxAppend_rxcnt, BitVec.toNat_add, BitVec.toNat_ofNat, List.length_cons, h1]
    omega

theorem rxAppendAll_rxcnt_toNat {l : List Byte} {s : State} (h : s.rxcnt.toNat + l.length < 4096) :
    (rxAppendAll l s).rxcnt.toNat = s.rxcnt.toNat + l.length := by
  rw [rxAppendAll_rxcnt, BitVec.toNat_add, BitVec.toNat_ofNat]
  omega

/-- Appending `l` puts its bytes at `RXCNT` and on, and changes no other byte. -/
theorem rxAppendAll_read {l : List Byte} {s : State} (h : s.rxcnt.toNat + l.length < 4096)
    (b : Nat) :
    (rxAppendAll l s).rxbuf.read b =
      if s.rxcnt.toNat ≤ b ∧ b < s.rxcnt.toNat + l.length then l[b - s.rxcnt.toNat]?
      else s.rxbuf.read b := by
  induction l generalizing s with
  | nil =>
    rw [rxAppendAll, if_neg]
    simp only [List.length_nil]
    omega
  | cons v l ih =>
    simp only [List.length_cons] at h
    have h1 := rxAppend_rxcnt_toNat (v := v) (s := s) (by omega)
    rw [rxAppendAll, ih (by omega), h1, rxAppend_rxbuf, read_write]
    by_cases h2 : s.rxcnt.toNat = b
    · subst h2
      rw [if_neg (by omega), if_pos rfl, if_pos (by simp)]
      simp
    · rw [if_neg h2]
      by_cases h3 : s.rxcnt.toNat + 1 ≤ b ∧ b < s.rxcnt.toNat + 1 + l.length
      · have h4 : b - s.rxcnt.toNat = (b - (s.rxcnt.toNat + 1)) + 1 := by omega
        rw [if_pos h3, if_pos (by simp only [List.length_cons]; omega), h4,
          List.getElem?_cons_succ]
      · rw [if_neg h3, if_neg (by simp only [List.length_cons]; omega)]

/-- Appends inside the buffer keep its canonical form. -/
theorem rxAppendAll_wf {cap : Nat} {l : List Byte} {s : State}
    (h : s.rxcnt.toNat + l.length ≤ cap) (hc : cap < 4096) (hw : s.rxbuf.wf cap) :
    (rxAppendAll l s).rxbuf.wf cap := by
  induction l generalizing s with
  | nil => exact hw
  | cons v l ih =>
    simp only [List.length_cons] at h
    refine ih ?_ (write_wf hw (by omega) v)
    rw [rxAppend_rxcnt_toNat (by omega)]
    omega

/-- The appends bounded by `RXLEN` are the appends of as many bytes as are still missing. -/
theorem rxAppendBounded_eq (l : List Byte) (s : State) :
    rxAppendBounded l s = rxAppendAll (l.take (s.rxlen.toNat - s.rxcnt.toNat)) s := by
  induction l generalizing s with
  | nil => simp [rxAppendBounded, rxAppendAll]
  | cons v l ih =>
    rw [rxAppendBounded]
    split
    · rename_i h
      rw [BitVec.lt_def] at h
      have h1 := rxAppend_rxcnt_toNat (v := v) (s := s) (by have := s.rxlen.isLt; omega)
      have h2 : s.rxlen.toNat - s.rxcnt.toNat = (s.rxlen.toNat - (s.rxcnt.toNat + 1)) + 1 := by
        omega
      rw [ih, h1, h2, List.take_succ_cons, rxAppendAll, rxAppend_rxlen]
    · rename_i h
      rw [BitVec.lt_def] at h
      have h1 : s.rxlen.toNat - s.rxcnt.toNat = 0 := by omega
      rw [h1, List.take_zero, rxAppendAll]

/-! ## Slices and frames -/

@[simp] theorem txSlice_length (s : State) (a k : Nat) : (txSlice s a k).length = k := by
  simp [txSlice]

theorem txSlice_get {s : State} {a k i : Nat} (h : i < k) :
    (txSlice s a k)[i]? = some (txByte s (a + i)) := by
  simp [txSlice, h]

@[simp] theorem tailBytes_length (t : FrameTail) : (tailBytes t).length = 7 := rfl

/-- The bytes of a padded frame: the given ones, then `PAD`. -/
theorem paddedFrame_bytes (l : List Byte) {i : Nat} (h : i < 8) :
    (paddedFrame l).bytes[i]? = some (l.getD i Config.PAD) := by
  match i, h with
  | 0, _ | 1, _ | 2, _ | 3, _ | 4, _ | 5, _ | 6, _ | 7, _ => rfl

/-- What an addressed identifier is: the 11 bits of `TID` (R127). -/
theorem encodeStandard_tid (tid : BitVec 11) :
    encodeStandard (tid.setWidth 32) = tid.setWidth 32 := by
  apply BitVec.eq_of_toNat_eq
  have h : tid.toNat < 2048 := tid.isLt
  have h1 : tid.toNat &&& 2047 = tid.toNat % 2048 := Nat.and_two_pow_sub_one_eq_mod tid.toNat 11
  have h2 : (0x7FF : Word).toNat = 2047 := rfl
  simp only [encodeStandard, BitVec.toNat_setWidth, BitVec.toNat_and]
  rw [Nat.mod_eq_of_lt (show tid.toNat < 2 ^ 32 by omega), h2, h1]
  omega

/-! ## Effects

`Effect i s t` lists everything a command `i` can turn the state `s` into; `exec_effect` says that it
does, so that a claim about every command is a case analysis over these few. -/

/-- The result fields carry no emitted frame. -/
def Fields.noFrame : Fields → Prop
  | .frame _ _ _ => False
  | _ => True

theorem identFields_noFrame (raw : Word) : (identFields raw).noFrame := by
  unfold identFields
  split <;> trivial

/-- What a command does to the state: nothing but its result, a LOAD, a branch of PRODUCE_NEXT, the
flow-control frame, or one of the four received kinds. -/
inductive Effect (i : Instr) (s : State) : State → Prop where
  | quiet (st : Status) (f : Fields) (hs : st ≠ .nothingToSend) (hf : f.noFrame) :
      Effect i s (answer st f s)
  | load (tidin : Word) (a f : Bool) (p : List Byte) (t : State) (hi : i = .load tidin a f p)
      (ht : tidin < Config.STD_LIMIT) (h : execLoad tidin a f p s = .next t) : Effect i s t
  | raw (hg : produceGate s = true) (hf : s.fcen = false) : Effect i s (txRawFrame s)
  | single (hg : produceGate s = true) (hf : s.fcen = true) (hl : s.txlen < Config.SF_LIMIT) :
      Effect i s (txSingleFrame s)
  | first (hg : produceGate s = true) (hf : s.fcen = true) (hl : Config.SF_LIMIT ≤ s.txlen)
      (hp : s.txprog = 0) : Effect i s (txFirstFrame s)
  | consecutive (hg : produceGate s = true) (hf : s.fcen = true) (hl : Config.SF_LIMIT ≤ s.txlen)
      (hp : s.txprog ≠ 0) (hlt : s.txprog < s.txlen) : Effect i s (txConsecutiveFrame s)
  | nothing (hg : produceGate s = true) (hf : s.fcen = true) (hl : Config.SF_LIMIT ≤ s.txlen)
      (hp : s.txprog ≠ 0) (hge : s.txlen ≤ s.txprog) : Effect i s (txNothing s)
  | flowControl (h : s.state = .sendFlowControl) : Effect i s (txFlowControl s)
  | rxSingle (rxid : Word) (n : BitVec 4) (t : FrameTail)
      (hi : i = .rxSf rxid n t ∨ i = .consume rxid ⟨0x0#4 ++ n, t⟩)
      (hm : idMatches rxid s = true) (h : s.state = .awaitingReply) : Effect i s (rxSingle n t s)
  | rxFirst (rxid : Word) (n : BitVec 4) (t : FrameTail)
      (hi : i = .rxFf rxid n t ∨ i = .consume rxid ⟨0x1#4 ++ n, t⟩)
      (hm : idMatches rxid s = true) (h : s.state = .awaitingReply) : Effect i s (rxFirst n t s)
  | rxConsecutive (rxid : Word) (n : BitVec 4) (t : FrameTail)
      (hi : i = .rxCf rxid n t ∨ i = .consume rxid ⟨0x2#4 ++ n, t⟩)
      (hm : idMatches rxid s = true) (h : s.state = .awaitingReply) :
      Effect i s (rxConsecutive t s)
  | rxFlowControl (rxid : Word) (n : BitVec 4) (t : FrameTail)
      (hi : i = .rxFc rxid n t ∨ i = .consume rxid ⟨0x3#4 ++ n, t⟩)
      (hm : idMatches rxid s = true)
      (h : s.state = .awaitingReply ∨ s.state = .awaitingFlowControl) :
      Effect i s (rxFlowControl s)

theorem takeBranch_next {b : Bool} {e s t : State} (h : takeBranch b e s = .next t) :
    t = answer .badState .none s ∨ (produceGate s = true ∧ b = true ∧ t = e) := by
  unfold takeBranch at h
  split at h
  · exact .inl (by injection h with h; exact h.symm)
  · rename_i hg
    split at h
    · rename_i hb
      exact .inr ⟨by simpa using hg, hb, by injection h with h; exact h.symm⟩
    · cases h

theorem produceNext_effect {s t : State} {i : Instr} (h : execProduceNext s = .next t) :
    Effect i s t := by
  unfold execProduceNext at h
  split at h
  · cases h; exact .quiet _ _ (by decide) trivial
  rename_i hg
  have hg : produceGate s = true := by simpa using hg
  split at h
  · rename_i hf; cases h; exact .raw hg hf
  rename_i hf
  have hf : s.fcen = true := by simpa using hf
  split at h
  · rename_i hl; cases h; exact .single hg hf hl
  rename_i hl
  have hl : Config.SF_LIMIT ≤ s.txlen := BitVec.not_lt.1 hl
  split at h
  · rename_i hp; cases h; exact .first hg hf hl hp
  rename_i hp
  split at h
  · rename_i hlt; cases h; exact .consecutive hg hf hl hp hlt
  · rename_i hlt; cases h; exact .nothing hg hf hl hp (BitVec.not_lt.1 hlt)

/-- A consumed frame by its kind. -/
theorem consume_of_pci {rxid : Word} {d : Frame} {p : BitVec 4} (h : d.pci = p) :
    Instr.consume rxid d = .consume rxid ⟨p ++ d.nibble, d.tail⟩ := by
  rw [← h, ← frame_eq]

theorem consume_effect {rxid : Word} {d : Frame} {s t : State}
    (h : execConsume rxid d s = .next t) : Effect (.consume rxid d) s t := by
  unfold execConsume ignoreFrame at h
  split at h
  · cases h; exact .quiet _ _ (by decide) trivial
  rename_i hm
  have hm : idMatches rxid s = true := by simpa using hm
  split at h
  · rename_i ha
    cases h
    exact .rxFlowControl rxid d.nibble d.tail (.inr (consume_of_pci ha.2)) hm (.inr ha.1)
  split at h
  · cases h; exact .quiet _ _ (by decide) trivial
  rename_i hs
  have hs : s.state = .awaitingReply := Decidable.not_not.1 hs
  split at h
  · rename_i hp; cases h; exact .rxSingle rxid _ _ (.inr (consume_of_pci hp)) hm hs
  split at h
  · rename_i hp; cases h; exact .rxFirst rxid _ _ (.inr (consume_of_pci hp)) hm hs
  split at h
  · rename_i hp
    cases h
    exact .rxConsecutive rxid d.nibble _ (.inr (consume_of_pci hp)) hm hs
  split at h
  · rename_i hp
    cases h
    exact .rxFlowControl rxid d.nibble d.tail (.inr (consume_of_pci hp)) hm (.inl hs)
  · cases h; exact .quiet _ _ (by decide) trivial

theorem replyGate_eq_true {rxid : Word} {s : State} (h : replyGate rxid s = true) :
    idMatches rxid s = true ∧ s.state = .awaitingReply := by
  simpa only [replyGate, Bool.and_eq_true, beq_iff_eq] using h

/-- Everything a command can do. -/
theorem exec_effect {i : Instr} {s t : State} (h : exec i s = .next t) : Effect i s t := by
  cases i with
  | decode raw => cases h; exact .quiet _ _ (by decide) (identFields_noFrame raw)
  | encExt p a d => cases h; exact .quiet _ _ (by decide) trivial
  | encStd a => cases h; exact .quiet _ _ (by decide) trivial
  | load tidin a f p =>
    by_cases ht : Config.STD_LIMIT ≤ tidin
    · simp only [exec, execLoad, if_pos ht] at h
      cases h; exact .quiet _ _ (by decide) trivial
    · exact .load tidin a f p t rfl (BitVec.not_le.1 ht) h
  | produceNext => exact produceNext_effect h
  | produceFc =>
    simp only [exec, execProduceFc] at h
    split at h
    · rename_i hs; cases h; exact .flowControl hs
    · cases h; exact .quiet _ _ (by decide) trivial
  | consume rxid d => exact consume_effect h
  | readStatus => cases h; exact .quiet _ _ (by decide) trivial
  | readRx j =>
    simp only [exec, execReadRx] at h
    split at h <;> (cases h; exact .quiet _ _ (by decide) trivial)
  | reservedOp hd => cases h; exact .quiet _ _ (by decide) trivial
  | idStd a => cases h; exact .quiet _ _ (by decide) trivial
  | idExt p q a d => cases h; exact .quiet _ _ (by decide) trivial
  | rxSf rxid n tl =>
    cases h
    split
    · rename_i hg
      obtain ⟨hm, hs⟩ := replyGate_eq_true hg
      exact .rxSingle rxid _ _ (.inl rfl) hm hs
    · exact .quiet _ _ (by decide) trivial
  | rxFf rxid n tl =>
    cases h
    split
    · rename_i hg
      obtain ⟨hm, hs⟩ := replyGate_eq_true hg
      exact .rxFirst rxid _ _ (.inl rfl) hm hs
    · exact .quiet _ _ (by decide) trivial
  | rxCf rxid n tl =>
    cases h
    split
    · rename_i hg
      obtain ⟨hm, hs⟩ := replyGate_eq_true hg
      exact .rxConsecutive rxid n _ (.inl rfl) hm hs
    · exact .quiet _ _ (by decide) trivial
  | rxFc rxid n tl =>
    cases h
    split
    · rename_i hg
      simp only [Bool.and_eq_true, Bool.or_eq_true, beq_iff_eq] at hg
      exact .rxFlowControl rxid n tl (.inl rfl) hg.1 hg.2
    · exact .quiet _ _ (by decide) trivial
  | rxRsvd47 rxid n tl => cases h; exact .quiet _ _ (by decide) trivial
  | rxRsvd8F rxid n tl => cases h; exact .quiet _ _ (by decide) trivial
  | txRaw =>
    rcases takeBranch_next h with rfl | ⟨hg, hb, rfl⟩
    · exact .quiet _ _ (by decide) trivial
    · exact .raw hg (by simpa [selectsRaw] using hb)
  | txSf =>
    rcases takeBranch_next h with rfl | ⟨hg, hb, rfl⟩
    · exact .quiet _ _ (by decide) trivial
    · simp only [selectsSingle, Bool.and_eq_true, decide_eq_true_eq] at hb
      exact .single hg hb.1 hb.2
  | txFf =>
    rcases takeBranch_next h with rfl | ⟨hg, hb, rfl⟩
    · exact .quiet _ _ (by decide) trivial
    · simp only [selectsFirst, Bool.and_eq_true, Bool.not_eq_true', decide_eq_false_iff_not,
        beq_iff_eq, BitVec.not_lt] at hb
      exact .first hg hb.1.1 hb.1.2 hb.2
  | txCf =>
    rcases takeBranch_next h with rfl | ⟨hg, hb, rfl⟩
    · exact .quiet _ _ (by decide) trivial
    · simp only [selectsConsecutive, Bool.and_eq_true, Bool.not_eq_true', decide_eq_false_iff_not,
        decide_eq_true_eq, bne_iff_ne, BitVec.not_lt] at hb
      exact .consecutive hg hb.1.1.1 hb.1.1.2 hb.1.2 hb.2
  | txNone =>
    rcases takeBranch_next h with rfl | ⟨hg, hb, rfl⟩
    · exact .quiet _ _ (by decide) trivial
    · simp only [selectsNothing, Bool.and_eq_true, Bool.not_eq_true', decide_eq_false_iff_not,
        bne_iff_ne, BitVec.not_lt] at hb
      exact .nothing hg hb.1.1.1 hb.1.1.2 hb.1.2 hb.2
  | txFc =>
    simp only [exec, execTxFc] at h
    split at h
    · rename_i hs; cases h; exact .flowControl hs
    · cases h; exact .quiet _ _ (by decide) trivial

/-- Everything a step can do: idle, reset, or take a command and carry it out (R8, R70, R210). -/
theorem step_cases {s t : State} (h : step s = .next t) :
    (s.port = [] ∧ t = s) ∨
    (∃ rest, s.port = .reset :: rest ∧ t = resetEvent { s with port := rest }) ∨
    (∃ c rest i, s.port = .command c :: rest ∧ decode (.cmd c) = .ok i ∧
      exec i { s with port := rest } = .next t) := by
  unfold step takeInput at h
  cases hp : s.port with
  | nil =>
    rw [hp] at h
    cases h
    exact .inl ⟨rfl, rfl⟩
  | cons e rest =>
    rw [hp] at h
    cases e with
    | reset =>
      cases h
      exact .inr (.inl ⟨rest, rfl, rfl⟩)
    | command c =>
      simp only at h
      split at h
      · rename_i i hd
        exact .inr (.inr ⟨c, rest, i, rfl, hd, h⟩)
      · cases h

end Sys2Proof.Machine
end

