-- ==== Sys2Proof/Laws/Operands.lean ====
section
/-! SUPPORT. The operand forms as numbers: what each assembled field is worth (R85), when an identifier
matches (R142), which kind a frame is (R144), and what the received kinds do to the registers. -/

namespace Sys2Proof.Machine

/-! ## The codec -/

theorem stdLimit_toNat : Config.STD_LIMIT.toNat = 0x800 := rfl

theorem sfLimit_toNat : Config.SF_LIMIT.toNat = 8 := rfl

/-- ENC_EXT's word as a number (R103). -/
theorem encodeExtended_toNat (pri arb snd : Word) :
    (encodeExtended pri arb snd).toNat =
      pri.toNat % 8 * 2 ^ 26 + arb.toNat % 0x2000 * 2 ^ 13 + snd.toNat % 0x2000 := by
  have h7 : (0x7 : Word).toNat = 2 ^ 3 - 1 := rfl
  have h1 : (0x1FFF : Word).toNat = 2 ^ 13 - 1 := rfl
  have hp : pri.toNat % 2 ^ 3 < 2 ^ 3 := Nat.mod_lt _ (by decide)
  have ha : arb.toNat % 2 ^ 13 < 2 ^ 13 := Nat.mod_lt _ (by decide)
  have hd : snd.toNat % 2 ^ 13 < 2 ^ 13 := Nat.mod_lt _ (by decide)
  simp only [encodeExtended, BitVec.toNat_or, BitVec.toNat_shiftLeft, BitVec.toNat_and, h7, h1,
    Nat.and_two_pow_sub_one_eq_mod]
  rw [Nat.mod_eq_of_lt (a := (pri.toNat % 2 ^ 3) <<< 26) (by rw [Nat.shiftLeft_eq]; omega),
    Nat.mod_eq_of_lt (a := (arb.toNat % 2 ^ 13) <<< 13) (by rw [Nat.shiftLeft_eq]; omega),
    Nat.or_assoc, ← Nat.shiftLeft_add_eq_or_of_lt hd,
    ← Nat.shiftLeft_add_eq_or_of_lt (b := (arb.toNat % 2 ^ 13) <<< 13 + snd.toNat % 2 ^ 13)
      (i := 26) (by rw [Nat.shiftLeft_eq]; omega)]
  simp only [Nat.shiftLeft_eq]
  omega

/-- ENC_STD's word as a number (R104). -/
theorem encodeStandard_toNat (arb : Word) : (encodeStandard arb).toNat = arb.toNat % 0x800 := by
  have h : (0x7FF : Word).toNat = 2 ^ 11 - 1 := rfl
  simp only [encodeStandard, BitVec.toNat_setWidth, BitVec.toNat_and, h,
    Nat.and_two_pow_sub_one_eq_mod]
  omega

/-! ## Header bytes -/

theorem singleHeader_toNat {n : BitVec 12} (h : n.toNat < 16) :
    (singleHeader n).toNat = n.toNat := by
  rw [singleHeader, BitVec.toNat_append, ← Nat.shiftLeft_add_eq_or_of_lt (BitVec.isLt _),
    BitVec.extractLsb'_toNat]
  simp only [BitVec.toNat_ofNat, Nat.shiftRight_zero, Nat.shiftLeft_eq]
  omega

theorem consecutiveHeader_toNat (seq : BitVec 4) :
    (consecutiveHeader seq).toNat = 0x20 + seq.toNat := by
  rw [consecutiveHeader, BitVec.toNat_append, ← Nat.shiftLeft_add_eq_or_of_lt (BitVec.isLt _)]
  rfl

theorem firstFrameLength_toNat (hi : BitVec 4) (lo : Byte) :
    (firstFrameLength hi lo).toNat = hi.toNat * 256 + lo.toNat := by
  rw [firstFrameLength, BitVec.toNat_append, ← Nat.shiftLeft_add_eq_or_of_lt (BitVec.isLt _),
    Nat.shiftLeft_eq]

/-! ## Identifiers and kinds -/

/-- The identifier match compares low bytes (R142). -/
theorem idMatches_iff (rxid : Word) (s : State) :
    idMatches rxid s = true ↔ rxid.toNat % 256 = s.tid.toNat % 256 := by
  simp only [idMatches, beq_iff_eq]
  constructor
  · intro h
    simpa [BitVec.extractLsb'_toNat] using congrArg BitVec.toNat h
  · intro h
    apply BitVec.eq_of_toNat_eq
    simpa [BitVec.extractLsb'_toNat] using h

theorem pci_toNat (d : Frame) : d.pci.toNat = d.d0.toNat / 16 := by
  have := d.d0.isLt
  simp only [Frame.pci, BitVec.extractLsb'_toNat, Nat.shiftRight_eq_div_pow]
  omega

theorem pci_eq_iff (d : Frame) {n : Nat} (h : n < 16) :
    d.pci = BitVec.ofNat 4 n ↔ d.d0.toNat / 16 = n := by
  rw [← pci_toNat]
  constructor
  · intro e
    rw [e, BitVec.toNat_ofNat]
    omega
  · intro e
    apply BitVec.eq_of_toNat_eq
    rw [e, BitVec.toNat_ofNat]
    omega

@[simp] theorem decodeFrame_single (rxid : Word) (n : BitVec 4) (t : FrameTail) :
    decodeFrame rxid ⟨0x0#4 ++ n, t⟩ = .rxSf rxid n t := by
  simp only [decodeFrame, pci_append, nibble_append]
  rfl

@[simp] theorem decodeFrame_first (rxid : Word) (n : BitVec 4) (t : FrameTail) :
    decodeFrame rxid ⟨0x1#4 ++ n, t⟩ = .rxFf rxid n t := by
  simp only [decodeFrame, pci_append, nibble_append]
  rfl

@[simp] theorem decodeFrame_consecutive (rxid : Word) (n : BitVec 4) (t : FrameTail) :
    decodeFrame rxid ⟨0x2#4 ++ n, t⟩ = .rxCf rxid n t := by
  simp only [decodeFrame, pci_append, nibble_append]
  rfl

@[simp] theorem decodeFrame_flowControl (rxid : Word) (n : BitVec 4) (t : FrameTail) :
    decodeFrame rxid ⟨0x3#4 ++ n, t⟩ = .rxFc rxid n t := by
  simp only [decodeFrame, pci_append, nibble_append]
  rfl

/-- A frame with a reserved PCI decodes to one of the two reserved rows. -/
theorem decodeFrame_reserved (rxid : Word) {d : Frame} (h : 4 ≤ d.pci.toNat) :
    (∃ low, decodeFrame rxid d = .rxRsvd47 rxid low d.tail) ∨
      (∃ low, decodeFrame rxid d = .rxRsvd8F rxid low d.tail) := by
  unfold decodeFrame
  split
  · omega
  · omega
  · omega
  · omega
  · split
    · exact .inr ⟨_, rfl⟩
    · exact .inl ⟨_, rfl⟩

/-! ## The received kinds -/

/-- Appending changes `RXBUF` and `RXCNT` alone. -/
theorem rxAppendAll_eq (l : List Byte) (s : State) :
    rxAppendAll l s =
      { s with
        rxbuf := (rxAppendAll l s).rxbuf
        rxcnt := s.rxcnt + BitVec.ofNat 12 l.length } := by
  induction l generalizing s with
  | nil => simp [rxAppendAll]
  | cons v l ih =>
    have h := rxAppendAll_rxcnt (v :: l) s
    rw [rxAppendAll] at h ⊢
    rw [← h, ih]
    rfl

theorem rxDeclare_append_read {len : BitVec 12} {l : List Byte} {s : State}
    (h : l.length < 4096) (b : Nat) :
    (rxAppendAll l (rxDeclare len s)).rxbuf.read b =
      if b < l.length then l[b]? else s.rxbuf.read b := by
  have hz : (rxDeclare len s).rxcnt.toNat = 0 := rfl
  rw [rxAppendAll_read (by omega), hz]
  simp

/-- A declaration and its appends: the registers afterwards. -/
theorem rxDeclare_append_eq (len : BitVec 12) (l : List Byte) (s : State) :
    rxAppendAll l (rxDeclare len s) =
      { s with
        rxlen := len
        rxlv := true
        rxbuf := (rxAppendAll l (rxDeclare len s)).rxbuf
        rxcnt := BitVec.ofNat 12 l.length } := by
  rw [rxAppendAll_eq]
  simp [rxDeclare, rxClear]

end Sys2Proof.Machine
end

