-- ==== Sys2Proof/Laws/PerInstr.lean ====
section
/-! SUPPORT. Statements about every instruction, one lemma per constructor of `Instr`. -/

namespace Sys2Proof.Laws.RoundTrip

/-- The decoder reads a well-formed instruction back from what the encoder writes for it. -/
def Statement (i : Instr) : Prop :=
  i.wellFormed = true → ∀ c, encode i = some c → Sys2Proof.decode c = .ok i

theorem decode (raw : Word) : Statement (.decode raw) := by
  intro _ c h
  cases h
  have hl : illegalHeader (plainHeader 1) = false := by decide
  have hop : (headerOp (plainHeader 1)).toNat = 1 := by decide
  simp only [Sys2Proof.decode, decodeCommand, hl, hop, Bool.false_eq_true, ↓reduceIte]

theorem encExt (pri arb snd : Word) : Statement (.encExt pri arb snd) := by
  intro _ c h
  cases h
  have hl : illegalHeader (plainHeader 2) = false := by decide
  have hop : (headerOp (plainHeader 2)).toNat = 2 := by decide
  simp only [Sys2Proof.decode, decodeCommand, hl, hop, Bool.false_eq_true, ↓reduceIte]

theorem encStd (arb : Word) : Statement (.encStd arb) := by
  intro _ c h
  cases h
  have hl : illegalHeader (plainHeader 3) = false := by decide
  have hop : (headerOp (plainHeader 3)).toNat = 3 := by decide
  simp only [Sys2Proof.decode, decodeCommand, hl, hop, Bool.false_eq_true, ↓reduceIte]

theorem load (tidin : Word) (await fcen : Bool) (payload : List Byte) :
    Statement (.load tidin await fcen payload) := by
  intro hw c h
  cases h
  have hw : payload.length ≤ 4095 := of_decide_eq_true hw
  have hop := headerOp_encodeHeader (BitVec.ofNat 12 payload.length) fcen await 0x4
  simp only [Sys2Proof.decode, decodeCommand, encodeHeader_load_legal, Bool.false_eq_true,
    ↓reduceIte, hop, headerN_encodeHeader, headerA_encodeHeader, headerF_encodeHeader]
  have hn : (BitVec.ofNat 12 payload.length).toNat = payload.length := by
    rw [BitVec.toNat_ofNat]; omega
  simp [hn]

theorem produceNext : Statement .produceNext := by
  intro _ c h
  cases h
  have hl : illegalHeader (plainHeader 5) = false := by decide
  have hop : (headerOp (plainHeader 5)).toNat = 5 := by decide
  simp only [Sys2Proof.decode, decodeCommand, hl, hop, Bool.false_eq_true, ↓reduceIte]

theorem produceFc : Statement .produceFc := by
  intro _ c h
  cases h
  have hl : illegalHeader (plainHeader 6) = false := by decide
  have hop : (headerOp (plainHeader 6)).toNat = 6 := by decide
  simp only [Sys2Proof.decode, decodeCommand, hl, hop, Bool.false_eq_true, ↓reduceIte]

theorem consume (rxid : Word) (rxd : Frame) : Statement (.consume rxid rxd) := by
  intro _ c h
  cases h
  have hl : illegalHeader (plainHeader 7) = false := by decide
  have hop : (headerOp (plainHeader 7)).toNat = 7 := by decide
  simp only [Sys2Proof.decode, decodeCommand, hl, hop, Bool.false_eq_true, ↓reduceIte]
  rfl

theorem readStatus : Statement .readStatus := by
  intro _ c h
  cases h
  have hl : illegalHeader (plainHeader 8) = false := by decide
  have hop : (headerOp (plainHeader 8)).toNat = 8 := by decide
  simp only [Sys2Proof.decode, decodeCommand, hl, hop, Bool.false_eq_true, ↓reduceIte]

theorem readRx (index : BitVec 12) : Statement (.readRx index) := by
  intro _ c h
  cases h
  have hop := headerOp_encodeHeader index false false 0x9
  simp only [Sys2Proof.decode, decodeCommand, encodeHeader_readRx_legal, Bool.false_eq_true,
    ↓reduceIte, hop, headerN_encodeHeader]
  rfl

theorem reservedOp (header : Word) : Statement (.reservedOp header) := by
  intro hw c h
  cases h
  simp only [Instr.wellFormed] at hw
  simp [Sys2Proof.decode, decodeCommand, hw]

theorem idStd (arb : BitVec 11) : Statement (.idStd arb) := by
  intro _ c h
  cases h
  simp only [Sys2Proof.decode, decodeIdent]
  rw [if_pos (idStd_lt arb), idStd_arb]

theorem idExt (pad pri : BitVec 3) (arb snd : BitVec 13) :
    Statement (.idExt pad pri arb snd) := by
  intro hw c h
  cases h
  have hw := of_decide_eq_true hw
  simp only [Sys2Proof.decode, decodeIdent]
  rw [if_neg (BitVec.not_lt.2 hw), extWord_pad, extWord_pri, extWord_arb, extWord_snd]

theorem rxSf (rxid : Word) (len : BitVec 4) (tail : FrameTail) :
    Statement (.rxSf rxid len tail) := by
  intro _ c h
  cases h
  simp only [Sys2Proof.decode, decodeFrame, pci_append, nibble_append]
  rfl

theorem rxFf (rxid : Word) (lenHi : BitVec 4) (tail : FrameTail) :
    Statement (.rxFf rxid lenHi tail) := by
  intro _ c h
  cases h
  simp only [Sys2Proof.decode, decodeFrame, pci_append, nibble_append]
  rfl

theorem rxCf (rxid : Word) (sn : BitVec 4) (tail : FrameTail) :
    Statement (.rxCf rxid sn tail) := by
  intro _ c h
  cases h
  simp only [Sys2Proof.decode, decodeFrame, pci_append, nibble_append]
  rfl

theorem rxFc (rxid : Word) (fs : BitVec 4) (tail : FrameTail) :
    Statement (.rxFc rxid fs tail) := by
  intro _ c h
  cases h
  simp only [Sys2Proof.decode, decodeFrame, pci_append, nibble_append]
  rfl

theorem rxRsvd47 (rxid : Word) (low : BitVec 6) (tail : FrameTail) :
    Statement (.rxRsvd47 rxid low tail) := by
  have key : ∀ low : BitVec 6, decodeFrame rxid ⟨0b01#2 ++ low, tail⟩ =
      .rxRsvd47 rxid low tail := by
    intro low
    have h : ∀ l : BitVec 6, 4 ≤ ((0b01#2 ++ l : Byte).extractLsb' 4 4).toNat ∧
        (0b01#2 ++ l : Byte).getLsbD 7 = false ∧ (0b01#2 ++ l : Byte).extractLsb' 0 6 = l := by
      decide
    obtain ⟨h1, h2, h3⟩ := h low
    simp only [decodeFrame, Frame.pci, h2, h3, Bool.false_eq_true, ↓reduceIte]
    split
    · omega
    · omega
    · omega
    · omega
    · rfl
  intro _ c h
  cases h
  simp only [Sys2Proof.decode, key]

theorem rxRsvd8F (rxid : Word) (low : BitVec 7) (tail : FrameTail) :
    Statement (.rxRsvd8F rxid low tail) := by
  have key : ∀ low : BitVec 7, decodeFrame rxid ⟨0b1#1 ++ low, tail⟩ =
      .rxRsvd8F rxid low tail := by
    intro low
    have h : ∀ l : BitVec 7, 4 ≤ ((0b1#1 ++ l : Byte).extractLsb' 4 4).toNat ∧
        (0b1#1 ++ l : Byte).getLsbD 7 = true ∧ (0b1#1 ++ l : Byte).extractLsb' 0 7 = l := by
      decide
    obtain ⟨h1, h2, h3⟩ := h low
    simp only [decodeFrame, Frame.pci, h2, h3, ↓reduceIte]
    split
    · omega
    · omega
    · omega
    · omega
    · rfl
  intro _ c h
  cases h
  simp only [Sys2Proof.decode, key]

theorem txRaw : Statement .txRaw := by
  intro _ c h; cases h

theorem txSf : Statement .txSf := by
  intro _ c h; cases h

theorem txFf : Statement .txFf := by
  intro _ c h; cases h

theorem txCf : Statement .txCf := by
  intro _ c h; cases h

theorem txNone : Statement .txNone := by
  intro _ c h; cases h

theorem txFc : Statement .txFc := by
  intro _ c h; cases h

end Sys2Proof.Laws.RoundTrip
end

