-- ==== Sys2Proof/Certificates/Slice0/Obligations.lean ====
section
/-! DEFINITION. The statements for the provers. Each docstring says which rule of the spec a statement
formalises. A statement about `exec` holds for every state, reachable or not, and so for every value of
the parameters `NEG_SID`, `NRC_PENDING` and `NRC_INDEX` (R10), which are a field of the state. -/

open Sys2Proof Sys2Proof.Machine

/-! ## The identifier codec -/

/-- R100, R102: DECODE answers the fields of the raw identifier's value and changes nothing else. -/
def Obligations.DecodeReadsFieldsByValue : Prop :=
  ∀ (raw : Word) (s : State),
    (raw.toNat < 0x800 → ∃ arb : BitVec 13, arb.toNat = raw.toNat ∧
      exec (.decode raw) s = .next { s with result := some ⟨.ok, .standardId arb⟩ }) ∧
    (0x800 ≤ raw.toNat → ∃ (pri : BitVec 3) (arb snd : BitVec 13),
      pri.toNat = raw.toNat / 2 ^ 26 % 8 ∧ arb.toNat = raw.toNat / 2 ^ 13 % 0x2000 ∧
      snd.toNat = raw.toNat % 0x2000 ∧
      exec (.decode raw) s = .next { s with result := some ⟨.ok, .extendedId pri arb snd⟩ })

/-- R103, R105: ENC_EXT masks each operand to its field, packs them, and changes nothing else. -/
def Obligations.EncExtPacksMaskedFields : Prop :=
  ∀ (pri arb snd : Word) (s : State), ∃ w : Word,
    w.toNat = pri.toNat % 8 * 2 ^ 26 + arb.toNat % 0x2000 * 2 ^ 13 + snd.toNat % 0x2000 ∧
    exec (.encExt pri arb snd) s = .next { s with result := some ⟨.ok, .word w⟩ }

/-- R104, R105: ENC_STD keeps the low 11 bits of its operand and changes nothing else. -/
def Obligations.EncStdKeepsElevenBits : Prop :=
  ∀ (arb : Word) (s : State), ∃ w : Word,
    w.toNat = arb.toNat % 0x800 ∧
    exec (.encStd arb) s = .next { s with result := some ⟨.ok, .word w⟩ }

/-- R106: decoding an encoded extended identifier gives it back, but for `p = 0`, `a = 0`,
`s < 0x800`, where it gives the standard identifier `s`. -/
def Obligations.ExtendedRoundTripButForStandardWords : Prop :=
  ∀ (p a d : Word) (s : State), p.toNat < 8 → a.toNat < 0x2000 → d.toNat < 0x2000 →
    ∃ w : Word,
      exec (.encExt p a d) s = .next { s with result := some ⟨.ok, .word w⟩ } ∧
      (¬ (p.toNat = 0 ∧ a.toNat = 0 ∧ d.toNat < 0x800) →
        exec (.decode w) s = .next { s with
          result := some ⟨.ok, .extendedId (p.setWidth 3) (a.setWidth 13) (d.setWidth 13)⟩ }) ∧
      (p.toNat = 0 → a.toNat = 0 → d.toNat < 0x800 →
        w = d ∧
        exec (.decode w) s = .next { s with result := some ⟨.ok, .standardId (d.setWidth 13)⟩ })

/-- R107: DECODE of two extended identifiers that differ in bits 31:29 only is the same; but the form
is that of the whole word, so `0xE0000000` is extended, with all fields 0. -/
def Obligations.DecodeIgnoresPadBits : Prop :=
  (∀ (raw other : Word) (s : State), 0x800 ≤ raw.toNat → 0x800 ≤ other.toNat →
    raw.toNat % 2 ^ 29 = other.toNat % 2 ^ 29 → exec (.decode raw) s = exec (.decode other) s) ∧
  ∀ s : State,
    exec (.decode 0xE0000000) s = .next { s with result := some ⟨.ok, .extendedId 0 0 0⟩ } ∧
    exec (.decode 0xFFFFFFFF) s = exec (.decode 0x1FFFFFFF) s

/-- R38, R101, R102: the rows ID_STD and ID_EXT answer the variant of their form; a standard
identifier has no priority and no sender. -/
def Obligations.IdentifierRowsAnswerTheirVariant : Prop :=
  (∀ (arb : BitVec 11) (s : State), exec (.idStd arb) s =
    .next { s with result := some ⟨.ok, .standardId (arb.setWidth 13)⟩ }) ∧
  (∀ (pad pri : BitVec 3) (arb snd : BitVec 13) (s : State), exec (.idExt pad pri arb snd) s =
    .next { s with result := some ⟨.ok, .extendedId pri arb snd⟩ })

/-- R77, R87: DECODE does what the row of the identifier's form does, and that row is well-formed. -/
def Obligations.DecodeRunsTheIdentifiersForm : Prop :=
  ∀ (raw : Word) (s : State),
    exec (.decode raw) s = exec (decodeIdent raw) s ∧ (decodeIdent raw).wellFormed = true

/-! ## Outbound framing -/

/-- R121: outside `READY` and `SENDING`, PRODUCE_NEXT answers `BAD_STATE` and changes nothing. -/
def Obligations.ProduceNextNeedsReadyOrSending : Prop :=
  ∀ s : State, s.state ≠ .ready → s.state ≠ .sending →
    exec .produceNext s = .next { s with result := some ⟨.badState, .none⟩ }

/-- R122, R127, R128: with flow control disabled PRODUCE_NEXT sends up to 8 payload bytes verbatim in
one frame, padded, and goes to the post-send state. -/
def Obligations.RawFrameCarriesPayloadVerbatim : Prop :=
  ∀ s : State, s.state = .ready ∨ s.state = .sending → s.fcen = false →
    ∀ i ∈ [Instr.produceNext, .txRaw], ∃ d : Frame,
      exec i s = .next { s with
        txprog := BitVec.ofNat 12 (min s.txlen.toNat 8)
        state := if s.await then .awaitingReply else .completed
        result := some ⟨.ok, .frame (s.tid.setWidth 32) 0 d⟩ } ∧
      (∀ j < min s.txlen.toNat 8, ∀ b, s.txbuf.read j = some b → d.bytes[j]? = some b) ∧
      (∀ j < 8, s.txlen.toNat ≤ j → d.bytes[j]? = some 0xAA)

/-- R123, R127, R128: a payload shorter than 8 bytes goes out as one UNSEGMENTED frame: the length,
the payload, the padding; then the post-send state. -/
def Obligations.ShortPayloadGoesUnsegmented : Prop :=
  ∀ s : State, s.state = .ready ∨ s.state = .sending → s.fcen = true → s.txlen.toNat < 8 →
    ∀ i ∈ [Instr.produceNext, .txSf], ∃ d : Frame,
      exec i s = .next { s with
        txprog := s.txlen
        state := if s.await then .awaitingReply else .completed
        result := some ⟨.ok, .frame (s.tid.setWidth 32) 0 d⟩ } ∧
      d.d0.toNat = s.txlen.toNat ∧
      (∀ j < s.txlen.toNat, ∀ b, s.txbuf.read j = some b → d.bytes[j + 1]? = some b) ∧
      (∀ j < 8, s.txlen.toNat < j → d.bytes[j]? = some 0xAA)

/-- R124, R127: a longer payload opens with a First Frame: PCI and 12-bit length, high part first,
then 6 payload bytes; then `AWAITING_FLOW_CONTROL`. -/
def Obligations.LongPayloadOpensWithFirstFrame : Prop :=
  ∀ s : State, s.state = .ready ∨ s.state = .sending → s.fcen = true → 8 ≤ s.txlen.toNat →
    s.txprog = 0 →
    ∀ i ∈ [Instr.produceNext, .txFf], ∃ d : Frame,
      exec i s = .next { s with
        txprog := 6
        state := .awaitingFlowControl
        result := some ⟨.ok, .frame (s.tid.setWidth 32) 0 d⟩ } ∧
      d.d0.toNat = 0x10 + s.txlen.toNat / 256 ∧
      d.tail.d1.toNat = s.txlen.toNat % 256 ∧
      (∀ j < 6, ∀ b, s.txbuf.read j = some b → d.bytes[j + 2]? = some b)

/-- R125, R127, R128: mid-transfer PRODUCE_NEXT sends the next up to 7 payload bytes behind the
sequence counter, advances the progress and the counter, and reaches the post-send state with the
last byte. -/
def Obligations.ConsecutiveFrameCarriesNextBytes : Prop :=
  ∀ s : State, s.state = .ready ∨ s.state = .sending → s.fcen = true → 8 ≤ s.txlen.toNat →
    s.txprog ≠ 0 → s.txprog.toNat < s.txlen.toNat →
    ∀ i ∈ [Instr.produceNext, .txCf], ∃ (d : Frame) (progress : BitVec 12) (seq : BitVec 4),
      exec i s = .next { s with
        txprog := progress
        seq := seq
        state := if progress = s.txlen then if s.await then .awaitingReply else .completed
          else s.state
        result := some ⟨.ok, .frame (s.tid.setWidth 32) 0 d⟩ } ∧
      progress.toNat = s.txprog.toNat + min 7 (s.txlen.toNat - s.txprog.toNat) ∧
      seq.toNat = (s.seq.toNat + 1) % 16 ∧
      d.d0.toNat = 0x20 + s.seq.toNat ∧
      (∀ j < min 7 (s.txlen.toNat - s.txprog.toNat), ∀ b,
        s.txbuf.read (s.txprog.toNat + j) = some b → d.bytes[j + 1]? = some b) ∧
      (∀ j < 8, s.txlen.toNat - s.txprog.toNat < j → d.bytes[j]? = some 0xAA)

/-- R126: with everything sent PRODUCE_NEXT answers `NOTHING_TO_SEND` and goes to the post-send
state. -/
def Obligations.NothingLeftReturnsToPostSend : Prop :=
  ∀ s : State, s.state = .ready ∨ s.state = .sending → s.fcen = true → 8 ≤ s.txlen.toNat →
    s.txprog = s.txlen →
    ∀ i ∈ [Instr.produceNext, .txNone],
      exec i s = .next { s with
        state := if s.await then .awaitingReply else .completed
        result := some ⟨.nothingToSend, .none⟩ }

/-- R130, R131: PRODUCE_FC sends `30 00 00 00 00 00 00 00` in `SEND_FLOW_CONTROL` and goes to
`AWAITING_REPLY`; elsewhere it answers `BAD_STATE` and changes nothing. That its row TX_FC, an instruction
of its own, does the same, its answer `BAD_STATE` included, is the model's choice (assumption 7). -/
def Obligations.FlowControlFrameOnlyWhenDue : Prop :=
  ∀ s : State, ∀ i ∈ [Instr.produceFc, .txFc],
    (s.state = .sendFlowControl → exec i s = .next { s with
      state := .awaitingReply
      result := some ⟨.ok, .frame (s.tid.setWidth 32) 0 ⟨0x30, ⟨0, 0, 0, 0, 0, 0, 0⟩⟩⟩ }) ∧
    (s.state ≠ .sendFlowControl →
      exec i s = .next { s with result := some ⟨.badState, .none⟩ })

/-- R127: every frame the block emits is addressed to the transfer: `FID` is the word ENC_STD gives
for `TID`, which is `TID`, and `FIDE = 0`. -/
def Obligations.EmittedFramesAreAddressed : Prop :=
  ∀ (i : Instr) (s t : State) (fid : Word) (fide : BitVec 1) (d : Frame),
    exec i s = .next t → t.result = some ⟨.ok, .frame fid fide d⟩ →
    fid = s.tid.setWidth 32 ∧ fide = 0 ∧
    exec (.encStd (s.tid.setWidth 32)) s = .next { s with result := some ⟨.ok, .word fid⟩ }

/-- R129, R31, R32, R171: no command but LOAD writes the payload, its length, the identifier or the
flags. -/
def Obligations.OnlyLoadWritesTheTransfersSettings : Prop :=
  ∀ (i : Instr) (s t : State), (∀ tidin a f p, i ≠ .load tidin a f p) → exec i s = .next t →
    t.txbuf = s.txbuf ∧ t.txlen = s.txlen ∧ t.tid = s.tid ∧ t.await = s.await ∧ t.fcen = s.fcen

/-- R120, R130: a PRODUCE command writes no register but `STATE`, `TXPROG` and `SEQ`; PRODUCE_FC
writes `STATE` alone. -/
def Obligations.ProduceWritesOnlyTheSendSide : Prop :=
  ∀ s t : State,
    (∀ i ∈ [Instr.produceNext, .txRaw, .txSf, .txFf, .txCf, .txNone], exec i s = .next t →
      t = { s with state := t.state, txprog := t.txprog, seq := t.seq, result := t.result }) ∧
    (∀ i ∈ [Instr.produceFc, .txFc], exec i s = .next t →
      t = { s with state := t.state, result := t.result })

/-- The model's choice (assumption 7): a row of PRODUCE_NEXT answers `BAD_STATE` outside the gate of
R121; behind it, it is refused by name where the conditions of R120 select another row. -/
def Obligations.BranchRowsStopWhereNotSelected : Prop :=
  ∀ s : State,
    (s.state ≠ .ready → s.state ≠ .sending →
      ∀ i ∈ [Instr.txRaw, .txSf, .txFf, .txCf, .txNone],
        exec i s = .next { s with result := some ⟨.badState, .none⟩ }) ∧
    (s.state = .ready ∨ s.state = .sending →
      (s.fcen = true → exec .txRaw s = .refused .branchNotSelected) ∧
      (s.fcen = false ∨ 8 ≤ s.txlen.toNat → exec .txSf s = .refused .branchNotSelected) ∧
      (s.fcen = false ∨ s.txlen.toNat < 8 ∨ s.txprog ≠ 0 →
        exec .txFf s = .refused .branchNotSelected) ∧
      (s.fcen = false ∨ s.txlen.toNat < 8 ∨ s.txprog = 0 ∨ s.txlen.toNat ≤ s.txprog.toNat →
        exec .txCf s = .refused .branchNotSelected) ∧
      (s.fcen = false ∨ s.txlen.toNat < 8 ∨ s.txprog = 0 ∨ s.txprog.toNat < s.txlen.toNat →
        exec .txNone s = .refused .branchNotSelected))

/-! ## Inbound consumption -/

/-- R142: a frame whose identifier's low byte is not that of `TID` is ignored with no effect, in every
state, whatever its kind. -/
def Obligations.OtherIdentifiersAreIgnored : Prop :=
  ∀ (rxid : Word) (s : State), rxid.toNat % 256 ≠ s.tid.toNat % 256 →
    (∀ d, exec (.consume rxid d) s = .next { s with result := some ⟨.ignored, .none⟩ }) ∧
    (∀ n tail, ∀ i ∈ [Instr.rxSf rxid n tail, .rxFf rxid n tail, .rxCf rxid n tail,
      .rxFc rxid n tail], exec i s = .next { s with result := some ⟨.ignored, .none⟩ })

/-- R143: outside `AWAITING_REPLY`, every frame but a FLOW_CONTROL frame in `AWAITING_FLOW_CONTROL` is
ignored with no effect. -/
def Obligations.FramesOutsideTheGateAreIgnored : Prop :=
  ∀ (rxid : Word) (s : State), s.state ≠ .awaitingReply →
    (∀ d : Frame, ¬ (s.state = .awaitingFlowControl ∧ d.d0.toNat / 16 = 3) →
      exec (.consume rxid d) s = .next { s with result := some ⟨.ignored, .none⟩ }) ∧
    (∀ n tail, ∀ i ∈ [Instr.rxSf rxid n tail, .rxFf rxid n tail, .rxCf rxid n tail],
      exec i s = .next { s with result := some ⟨.ignored, .none⟩ }) ∧
    (s.state ≠ .awaitingFlowControl → ∀ n tail,
      exec (.rxFc rxid n tail) s = .next { s with result := some ⟨.ignored, .none⟩ })

/-- R144, R79: CONSUME does what the row of the frame's kind does. -/
def Obligations.ConsumeRunsTheFramesKind : Prop :=
  ∀ (rxid : Word) (d : Frame) (s : State),
    exec (.consume rxid d) s = exec (decodeFrame rxid d) s

/-- R145: an unsegmented frame with the response-pending pattern is absorbed: nothing changes,
whatever its length nibble. -/
def Obligations.ResponsePendingChangesNothing : Prop :=
  ∀ (rxid : Word) (len : BitVec 4) (tail : FrameTail) (s : State),
    rxid.toNat % 256 = s.tid.toNat % 256 → s.state = .awaitingReply →
    tail.d1 = s.params.negSid → nrcByte s.params.nrcIndex tail = s.params.nrcPending →
    ∀ i ∈ [Instr.rxSf rxid len tail, .consume rxid ⟨0x0#4 ++ len, tail⟩],
      exec i s = .next { s with result := some ⟨.pending, .none⟩ }

/-- R146, R147: any other unsegmented frame restarts reassembly with its bytes, at most 7, declares
its length nibble, and ends in `ERROR` if byte 1 is `NEG_SID`, else in `COMPLETED`. -/
def Obligations.UnsegmentedReplyEndsTheTransfer : Prop :=
  ∀ (rxid : Word) (len : BitVec 4) (tail : FrameTail) (s : State),
    rxid.toNat % 256 = s.tid.toNat % 256 → s.state = .awaitingReply →
    ¬ (tail.d1 = s.params.negSid ∧ nrcByte s.params.nrcIndex tail = s.params.nrcPending) →
    ∀ i ∈ [Instr.rxSf rxid len tail, .consume rxid ⟨0x0#4 ++ len, tail⟩], ∃ t : State,
      exec i s = .next t ∧
      { t with rxbuf := s.rxbuf } = { s with
        rxlen := len.setWidth 12
        rxlv := true
        rxcnt := BitVec.ofNat 12 (min len.toNat 7)
        state := if tail.d1 = s.params.negSid then .error else .completed
        result := some ⟨.ok, .none⟩ } ∧
      (∀ j < min len.toNat 7, t.rxbuf.read j = (tailBytes tail)[j]?) ∧
      (∀ a, min len.toNat 7 ≤ a → t.rxbuf.read a = s.rxbuf.read a)

/-- R148, R149, R150: a First Frame restarts reassembly with at most 6 bytes and no more than it
declares; below 6 bytes the transfer is cut short as `COMPLETED`, else a flow-control frame is due. -/
def Obligations.FirstFrameOpensReassembly : Prop :=
  ∀ (rxid : Word) (lenHi : BitVec 4) (tail : FrameTail) (s : State),
    rxid.toNat % 256 = s.tid.toNat % 256 → s.state = .awaitingReply →
    ∀ i ∈ [Instr.rxFf rxid lenHi tail, .consume rxid ⟨0x1#4 ++ lenHi, tail⟩],
      ∃ (t : State) (len : BitVec 12),
        len.toNat = lenHi.toNat * 256 + tail.d1.toNat ∧
        exec i s = .next t ∧
        { t with rxbuf := s.rxbuf } = { s with
          rxlen := len
          rxlv := true
          rxcnt := BitVec.ofNat 12 (min 6 len.toNat)
          state := if len.toNat < 6 then .completed else .sendFlowControl
          result := some ⟨.ok, .none⟩ } ∧
        (∀ j < min 6 len.toNat, t.rxbuf.read j = (tailBytes tail)[j + 1]?) ∧
        (∀ a, min 6 len.toNat ≤ a → t.rxbuf.read a = s.rxbuf.read a)

/-- R151: a Consecutive Frame before any length is known is ignored with no effect, in every state. -/
def Obligations.ConsecutiveFrameNeedsALength : Prop :=
  ∀ (rxid : Word) (sn : BitVec 4) (tail : FrameTail) (s : State), s.rxlv = false →
    ∀ i ∈ [Instr.rxCf rxid sn tail, .consume rxid ⟨0x2#4 ++ sn, tail⟩],
      exec i s = .next { s with result := some ⟨.ignored, .none⟩ }

/-- R152: a Consecutive Frame appends up to 7 bytes until the declared length is reached; reaching it
completes the transfer. -/
def Obligations.ConsecutiveFrameAppendsUpToTheLength : Prop :=
  ∀ (rxid : Word) (sn : BitVec 4) (tail : FrameTail) (s : State),
    rxid.toNat % 256 = s.tid.toNat % 256 → s.state = .awaitingReply → s.rxlv = true →
    ∀ i ∈ [Instr.rxCf rxid sn tail, .consume rxid ⟨0x2#4 ++ sn, tail⟩],
      ∃ (t : State) (count : BitVec 12),
        count.toNat = s.rxcnt.toNat + min 7 (s.rxlen.toNat - s.rxcnt.toNat) ∧
        exec i s = .next t ∧
        { t with rxbuf := s.rxbuf } = { s with
          rxcnt := count
          state := if count = s.rxlen then .completed else .awaitingReply
          result := some ⟨.ok, .none⟩ } ∧
        (∀ j < min 7 (s.rxlen.toNat - s.rxcnt.toNat),
          t.rxbuf.read (s.rxcnt.toNat + j) = (tailBytes tail)[j]?) ∧
        (∀ a, a < s.rxcnt.toNat ∨
            s.rxcnt.toNat + min 7 (s.rxlen.toNat - s.rxcnt.toNat) ≤ a →
          t.rxbuf.read a = s.rxbuf.read a)

/-- R154: a Flow Control frame in `AWAITING_FLOW_CONTROL` or `AWAITING_REPLY` moves the transfer to
`SENDING` and changes nothing else. -/
def Obligations.FlowControlResumesSending : Prop :=
  ∀ (rxid : Word) (fs : BitVec 4) (tail : FrameTail) (s : State),
    rxid.toNat % 256 = s.tid.toNat % 256 →
    s.state = .awaitingReply ∨ s.state = .awaitingFlowControl →
    ∀ i ∈ [Instr.rxFc rxid fs tail, .consume rxid ⟨0x3#4 ++ fs, tail⟩],
      exec i s = .next { s with state := .sending, result := some ⟨.ok, .none⟩ }

/-- R156: a frame with PCI `0x4` to `0xF` is ignored with no effect. -/
def Obligations.ReservedKindsAreIgnored : Prop :=
  ∀ (rxid : Word) (tail : FrameTail) (s : State),
    (∀ d : Frame, 4 ≤ d.d0.toNat / 16 →
      exec (.consume rxid d) s = .next { s with result := some ⟨.ignored, .none⟩ }) ∧
    (∀ low, exec (.rxRsvd47 rxid low tail) s =
      .next { s with result := some ⟨.ignored, .none⟩ }) ∧
    (∀ low, exec (.rxRsvd8F rxid low tail) s =
      .next { s with result := some ⟨.ignored, .none⟩ })

/-- R153, R155: the sequence number of a received Consecutive Frame and the whole content of a
received Flow Control frame change nothing. -/
def Obligations.UncheckedFrameFieldsDoNotMatter : Prop :=
  ∀ (rxid : Word) (n m : BitVec 4) (tail other : FrameTail) (s : State),
    exec (.consume rxid ⟨0x2#4 ++ n, tail⟩) s = exec (.consume rxid ⟨0x2#4 ++ m, tail⟩) s ∧
    exec (.rxCf rxid n tail) s = exec (.rxCf rxid m tail) s ∧
    exec (.consume rxid ⟨0x3#4 ++ n, tail⟩) s = exec (.consume rxid ⟨0x3#4 ++ m, other⟩) s ∧
    exec (.rxFc rxid n tail) s = exec (.rxFc rxid m other) s

/-- R141: of a received frame's identifier CONSUME reads the low byte alone. -/
def Obligations.OnlyTheLowIdentifierByteMatters : Prop :=
  ∀ (rxid other : Word) (d : Frame) (s : State), rxid.toNat % 256 = other.toNat % 256 →
    exec (.consume rxid d) s = exec (.consume other d) s

/-- R159: what CONSUME does is the same whatever `FCEN` is. -/
def Obligations.ConsumeDoesNotDependOnFlowControlSetting : Prop :=
  ∀ (rxid : Word) (d : Frame) (s : State) (f : Bool), ∃ t : State,
    exec (.consume rxid d) s = .next t ∧
    exec (.consume rxid d) { s with fcen := f } = .next { t with fcen := f }

/-- R140: CONSUME writes no register but `STATE`, `RXCNT`, `RXLEN`, `RXLV` and `RXBUF`. -/
def Obligations.ConsumeWritesOnlyTheReceiveSide : Prop :=
  ∀ (rxid : Word) (d : Frame) (s : State), ∃ t : State,
    exec (.consume rxid d) s = .next t ∧
    t = { s with
      state := t.state
      rxcnt := t.rxcnt
      rxlen := t.rxlen
      rxlv := t.rxlv
      rxbuf := t.rxbuf
      result := t.result }

/-- R193, R192, R146: only the receipt of a terminal negative response leads to `ERROR`: an unsegmented
frame, matched and awaited, with `NEG_SID` in byte 1 and not response-pending. Its bytes 1 to `min(N, 7)`
are what is held then, its length nibble is declared, and nothing else changes. -/
def Obligations.ErrorKeepsTheNegativeResponse : Prop :=
  ∀ (i : Instr) (s t : State), exec i s = .next t → s.state ≠ .error → t.state = .error →
    ∃ (rxid : Word) (len : BitVec 4) (tail : FrameTail),
      (i = .rxSf rxid len tail ∨ i = .consume rxid ⟨0x0#4 ++ len, tail⟩) ∧
      rxid.toNat % 256 = s.tid.toNat % 256 ∧ s.state = .awaitingReply ∧
      tail.d1 = s.params.negSid ∧ nrcByte s.params.nrcIndex tail ≠ s.params.nrcPending ∧
      { t with rxbuf := s.rxbuf } = { s with
        state := .error
        rxlen := len.setWidth 12
        rxlv := true
        rxcnt := BitVec.ofNat 12 (min len.toNat 7)
        result := some ⟨.ok, .none⟩ } ∧
      (∀ j < min len.toNat 7, t.rxbuf.read j = (tailBytes tail)[j]?) ∧
      (∀ a, min len.toNat 7 ≤ a → t.rxbuf.read a = s.rxbuf.read a)

/-! ## Host commands -/

/-- R170, R171, R176: LOAD of a standard identifier starts a new transfer in every state: the payload
and its length, the identifier and the flags are set, every other register is cleared, and the bytes of
`TXBUF` behind the payload keep what they held. -/
def Obligations.LoadStartsANewTransfer : Prop :=
  ∀ (tidin : Word) (a f : Bool) (payload : List Byte) (s : State), tidin.toNat < 0x800 →
    payload.length ≤ 4095 → ∃ t : State,
      exec (.load tidin a f payload) s = .next t ∧
      { t with txbuf := s.txbuf } = { s with
        tid := tidin.setWidth 11
        txlen := BitVec.ofNat 12 payload.length
        await := a
        fcen := f
        state := .ready
        txprog := 0
        seq := 0
        rxcnt := 0
        rxlen := 0
        rxlv := false
        result := some ⟨.ok, .none⟩ } ∧
      (∀ j, t.txbuf.read j = if j < payload.length then payload[j]? else s.txbuf.read j)

/-- R171: LOAD's write of a payload is the loop of R170, one `MemWrite` after the other. -/
def Obligations.PayloadWriteIsTheLoopOfByteWrites : Prop :=
  ∀ (m : Memory) (payload : List Byte), m.wf 4095 → payload.length ≤ 4095 →
    m.writePayload payload =
      (List.range payload.length).foldl (fun b i => b.write i (payload.getD i 0)) m

/-- R172: LOAD of an identifier of `0x800` or more answers `BAD_ARG` and changes nothing. -/
def Obligations.LoadRefusesExtendedIdentifiers : Prop :=
  ∀ (tidin : Word) (a f : Bool) (payload : List Byte) (s : State), 0x800 ≤ tidin.toNat →
    exec (.load tidin a f payload) s = .next { s with result := some ⟨.badArg, .none⟩ }

/-- R173: READ_STATUS answers every register at its width, `STATE` by its code of R26, and changes
nothing. -/
def Obligations.ReadStatusAnswersEveryRegister : Prop :=
  ∀ s : State, ∃ r : StatusRecord,
    exec .readStatus s = .next { s with result := some ⟨.ok, .registers r⟩ } ∧
    r.state.toNat = (match s.state with
      | .ready => 0 | .sending => 1 | .awaitingFlowControl => 2 | .awaitingReply => 3
      | .sendFlowControl => 4 | .completed => 5 | .error => 6) ∧
    r.tid = s.tid ∧ r.txlen = s.txlen ∧ r.txprog = s.txprog ∧ r.seq = s.seq ∧
    r.rxcnt = s.rxcnt ∧ r.rxlen = s.rxlen ∧ (r.rxlv = 1 ↔ s.rxlv = true) ∧
    (r.await = 1 ↔ s.await = true) ∧ (r.fcen = 1 ↔ s.fcen = true)

/-- R174: READ_RX answers the reassembled byte at its index, or `BAD_ARG` at `RXCNT` and above, and
changes nothing. -/
def Obligations.ReadRxAnswersHeldBytesOnly : Prop :=
  ∀ (j : BitVec 12) (s : State),
    (s.rxcnt.toNat ≤ j.toNat →
      exec (.readRx j) s = .next { s with result := some ⟨.badArg, .none⟩ }) ∧
    (j.toNat < s.rxcnt.toNat → ∃ b,
      exec (.readRx j) s = .next { s with result := some ⟨.ok, .byte b⟩ } ∧
      ∀ v, s.rxbuf.read j.toNat = some v → b = v)

/-- R175, R86, R195: a header with a reserved op code or a reserved bit is answered `ILLEGAL`, whatever
operands stand beside it, and changes nothing. -/
def Obligations.IllegalHeadersHaveNoEffect : Prop :=
  (∀ (h : Word) (s : State),
    exec (.reservedOp h) s = .next { s with result := some ⟨.illegal, .none⟩ }) ∧
  ∀ (c : Command) (rest : List Input) (s : State),
    let h := c.header.toNat
    s.port = .command c :: rest →
    h % 16 = 0 ∨ 10 ≤ h % 16 ∨ h / 2 ^ 20 ≠ 0 ∨ h / 2 ^ 6 % 4 ≠ 0 ∨
      (h % 16 ≠ 4 ∧ h % 16 ≠ 9 ∧ h / 2 ^ 8 % 4096 ≠ 0) ∨
      (h % 16 ≠ 4 ∧ h / 2 ^ 4 % 4 ≠ 0) →
    step s = .next { s with port := rest, result := some ⟨.illegal, .none⟩ }

/-- R60, R108: the reads and the codec change no register and no byte, and repeating one gives the
same result. -/
def Obligations.ReadsHaveNoSideEffect : Prop :=
  ∀ (raw pri arb snd : Word) (j : BitVec 12) (s : State),
    ∀ i ∈ [Instr.decode raw, .encExt pri arb snd, .encStd arb, .readStatus, .readRx j],
      ∃ r : Result,
        exec i s = .next { s with result := some r } ∧
        exec i { s with result := some r } = .next { s with result := some r }

/-! ## Results -/

/-- R74, R191: every command answers one of the statuses of its row with exactly the fields that exist
for it. -/
def Obligations.EveryResultHasItsFields : Prop :=
  ∀ (i : Instr) (s t : State), exec i s = .next t →
    ∃ r : Result, t.result = some r ∧ mayAnswer i r = true

/-- R191, R157: a status other than `OK` and `NOTHING_TO_SEND` means that nothing changed. -/
def Obligations.OtherStatusesMeanNoEffect : Prop :=
  ∀ (i : Instr) (s t : State) (r : Result), exec i s = .next t → t.result = some r →
    r.status ≠ .ok → r.status ≠ .nothingToSend → t = { s with result := some r }

/-! ## The machine -/

/-- R70, R87: when the oldest event presented is a command that decodes to `i`, a step takes it from
the port and runs `i`. -/
def Obligations.StepRunsTheDecodedCommand : Prop :=
  ∀ (c : Command) (i : Instr) (rest : List Input) (s : State),
    s.port = .command c :: rest → decode (.cmd c) = .ok i →
    step s = exec i { s with port := rest }

/-- R8: without a command nothing happens (that such a step answers the same state and does not stop is
the model's choice, assumption 4). -/
def Obligations.NothingHappensWithoutACommand : Prop :=
  ∀ s : State, s.port = [] → step s = .next s

/-- R73, R86: a transaction with a legal header is a command exactly where it has the operands R73 gives
the header: one word for DECODE, ENC_STD, LOAD and CONSUME, three for ENC_EXT, `N` bytes for LOAD, eight
for CONSUME, none else. That a step refuses any other by name, with the decoder's reason, is the model's
choice (assumption 8). -/
def Obligations.MalformedTransactionsAreRefused : Prop :=
  ∀ (c : Command) (rest : List Input) (s : State),
    let h := c.header.toNat
    let words :=
      if h % 16 = 2 then 3
      else if h % 16 = 1 ∨ h % 16 = 3 ∨ h % 16 = 4 ∨ h % 16 = 7 then 1 else 0
    let bytes := if h % 16 = 4 then h / 2 ^ 8 % 4096 else if h % 16 = 7 then 8 else 0
    s.port = .command c :: rest →
    h % 16 ≠ 0 → h % 16 < 10 → h / 2 ^ 20 = 0 → h / 2 ^ 6 % 4 = 0 →
    (h % 16 = 4 ∨ h % 16 = 9 ∨ h / 2 ^ 8 % 4096 = 0) → (h % 16 = 4 ∨ h / 2 ^ 4 % 4 = 0) →
    (c.words.length ≠ words ∨ c.bytes.length ≠ bytes →
      ∃ e, decode (.cmd c) = .error e ∧ step s = .refused (.malformedTransaction e)) ∧
    (c.words.length = words → c.bytes.length = bytes →
      ∃ i t, decode (.cmd c) = .ok i ∧ step s = .next t)

/-- R37: the registers right after reset; no byte of either buffer has a value. -/
def Obligations.ResetLeavesTheStatedRegisters : Prop :=
  State.reset.state = .ready ∧ State.reset.tid = 0 ∧ State.reset.txlen = 0 ∧
  State.reset.txprog = 0 ∧ State.reset.seq = 0 ∧ State.reset.rxcnt = 0 ∧
  State.reset.rxlen = 0 ∧ State.reset.rxlv = false ∧ State.reset.await = false ∧
  State.reset.fcen = false ∧
  (∀ a, State.reset.txbuf.read a = none) ∧ (∀ a, State.reset.rxbuf.read a = none)

/-- R210, R194: a reset event puts every register at its value of R37 and leaves no byte of either
buffer with a value. -/
def Obligations.ResetEventSetsEveryRegister : Prop :=
  ∀ (rest : List Input) (s : State), s.port = .reset :: rest → ∃ t : State,
    step s = .next t ∧ t.state = .ready ∧ t.tid = 0 ∧ t.txlen = 0 ∧ t.txprog = 0 ∧ t.seq = 0 ∧
    t.rxcnt = 0 ∧ t.rxlen = 0 ∧ t.rxlv = false ∧ t.await = false ∧ t.fcen = false ∧
    t.params = s.params ∧ t.port = rest ∧
    (∀ a, t.txbuf.read a = none) ∧ (∀ a, t.rxbuf.read a = none)

/-- R190: whatever the state, a step that has only commands of the interface before it answers a next
state, and a command leaves a result. -/
def Obligations.EveryPresentedCommandCompletes : Prop :=
  ∀ s : State, PortWf s → ∃ t : State, step s = .next t ∧ PortWf t ∧
    (∀ c rest, s.port = .command c :: rest → t.result ≠ none ∧ t.port = rest)

/-- R36: the state of the transfer after a command is the one the transition map gives, and after a
reset it is `READY`. -/
def Obligations.TransitionsAreTheMaps : Prop :=
  ∀ s t : State, step s = .next t →
    (s.port = [] → t.state = s.state) ∧
    (∀ rest, s.port = .reset :: rest → t.state = .ready) ∧
    (∀ c rest i, s.port = .command c :: rest → decode (.cmd c) = .ok i →
      t.state = transitionMap i s)

/-- R35, R176, R194: only a LOAD or a reset leaves `COMPLETED` or `ERROR`, or changes a byte or a
register there. -/
def Obligations.OnlyLoadOrResetLeavesATerminalState : Prop :=
  ∀ s t : State, s.state = .completed ∨ s.state = .error → step s = .next t →
    t = { s with port := t.port, result := t.result } ∨
    (∃ rest, s.port = .reset :: rest) ∨
    (∃ c rest tidin a f p, s.port = .command c :: rest ∧
      decode (.cmd c) = .ok (.load tidin a f p))

/-- R10: no step changes the parameters, which the model holds in its state (its choice,
assumption 1). -/
def Obligations.ParametersNeverChange : Prop :=
  ∀ s t : State, step s = .next t → t.params = s.params

/-- R33: the invariants, with the canonical form of the buffers, hold after every step from every state
in which they hold. -/
def Obligations.StepKeepsTheStateInvariants : Prop :=
  ∀ s t : State, Inv s → step s = .next t → Inv t

/-- R26, R30, R36: what each state says about the counts, and that the sequence counter is the number
of Consecutive Frames sent, mod 16, is kept by every step. -/
def Obligations.StepKeepsThePhasesAndTheCounter : Prop :=
  ∀ s t : State, Inv s → Phases s → step s = .next t → Phases t

/-- R33, R37: the invariants and the phases hold after reset. -/
def Obligations.ResetMeetsTheInvariants : Prop := Inv State.reset ∧ Phases State.reset

/-- R56, R52, R53: bytes above the counts cannot be observed: two states that differ only there step to
two states that differ only there, with the same result. -/
def Obligations.BytesAboveTheCountsAreNeverSeen : Prop :=
  ∀ s t s' : State, SameBelowCounts s t → step s = .next s' →
    ∃ t' : State, step t = .next t' ∧ SameBelowCounts s' t'

/-! ## Encodings -/

/-- R71 to R83, R87: the decoder reads every well-formed instruction back from its words, every operand
included; only the six outcomes of the PRODUCE commands have no word. And what the decoder reads is
well-formed and has the words it was read from, so no bit and no operand is dropped, but for the operands
beside an illegal header (R175). -/
def Obligations.DecodeReadsBackWhatEncodeWrites : Prop :=
  (∀ i : Instr, i.wellFormed = true →
    (∀ c, encode i = some c → decode c = .ok i) ∧
    (encode i = none ↔ i ∈ [Instr.txRaw, .txSf, .txFf, .txCf, .txNone, .txFc])) ∧
  (∀ (w : Code) (i : Instr), decode w = .ok i →
    i.wellFormed = true ∧
    (encode i = some w ∨
      ∃ c, w = .cmd c ∧ illegalHeader c.header = true ∧ i = .reservedOp c.header))

/-- R72, R79, R77: words of the spec's own examples decode to what they stand for. -/
def Obligations.SpecWordsDecodeToTheirRows : Prop :=
  decode (.cmd ⟨0x00000234, [0x241], [0x1A, 0x90]⟩) = .ok (.load 0x241 true true [0x1A, 0x90]) ∧
  decode (.cmd ⟨0x00000005, [], []⟩) = .ok .produceNext ∧
  decode (.cmd ⟨0x00001309, [], []⟩) = .ok (.readRx 19) ∧
  decode (.cmd ⟨0x00000105, [], []⟩) = .ok (.reservedOp 0x00000105) ∧
  decode (.ident 0x0C123ABC) = .ok (.idExt 0 3 0x091 0x1ABC) ∧
  decode (.frame 0x641 ⟨0x10, ⟨0x14, 0x40, 0x41, 0x42, 0x43, 0x44, 0x45⟩⟩) =
    .ok (.rxFf 0x641 0 ⟨0x14, 0x40, 0x41, 0x42, 0x43, 0x44, 0x45⟩)

/-! ## A sender and a receiver

Two blocks, each with its own state (R200); the host of each carries the frames over, once and in order
(R214, R215). -/

/-- R123, R146, R219: an unsegmented payload that does not look like a negative response is reproduced
by the receiver. -/
def Obligations.UnsegmentedPayloadArrives : Prop :=
  ∀ a b : State, a.state = .ready ∨ a.state = .sending → a.fcen = true → a.txlen.toNat < 8 →
    b.state = .awaitingReply → a.tid.toNat % 256 = b.tid.toNat % 256 →
    (a.txlen = 0 → b.params.negSid ≠ 0xAA) →
    (a.txlen ≠ 0 → txByte a 0 ≠ b.params.negSid) →
    ∃ (a' b' : State) (fid : Word) (d : Frame),
      exec .produceNext a = .next a' ∧ a'.result = some ⟨.ok, .frame fid 0 d⟩ ∧
      exec (.consume fid d) b = .next b' ∧ b'.state = .completed ∧ b'.rxcnt = a.txlen ∧
      ∀ i < a.txlen.toNat, rxByte b' i = txByte a i

/-- R124, R149, R130, R154: a First Frame carried over, and the flow-control frame carried back, bring
a sender and a receiver into lockstep. -/
def Obligations.FirstFrameAndFlowControlOpenLockstep : Prop :=
  ∀ a b : State, a.state = .ready ∨ a.state = .sending → segmented a → a.txprog = 0 →
    b.state = .awaitingReply → a.tid.toNat % 256 = b.tid.toNat % 256 →
    ∃ (a1 b1 b2 a2 : State) (fid1 fid2 : Word) (d1 d2 : Frame),
      exec .produceNext a = .next a1 ∧ a1.result = some ⟨.ok, .frame fid1 0 d1⟩ ∧
      exec (.consume fid1 d1) b = .next b1 ∧
      exec .produceFc b1 = .next b2 ∧ b2.result = some ⟨.ok, .frame fid2 0 d2⟩ ∧
      exec (.consume fid2 d2) a1 = .next a2 ∧ Lockstep a2 b2

/-- R125, R152: from lockstep, carrying at most `⌈(TXLEN - TXPROG) / 7⌉` Consecutive Frames over
completes the receiver with the sender's whole payload, byte for byte, for every payload length and
whatever the sequence counter. -/
def Obligations.SegmentedPayloadArrives : Prop :=
  ∀ a b : State, Lockstep a b → ∃ n ≤ (a.txlen.toNat - a.txprog.toNat + 6) / 7,
    ∀ a' b', carrySegments n (a, b) = (a', b') →
      a'.txprog = a.txlen ∧ b'.state = .completed ∧ b'.rxcnt = a.txlen ∧
      ∀ i < a.txlen.toNat, rxByte b' i = txByte a i
end

