-- ==== Sys2Proof/Laws/Safety.lean ====
section
/-! SUPPORT. What a port holds is no part of the invariants or of the transition map, so a claim about a
step follows from the claim about `exec`; and no transaction decodes to a row the state selects. -/

namespace Sys2Proof.Machine

theorem Inv.of_port {s : State} (h : Inv s) (p : List Input) : Inv { s with port := p } :=
  ⟨h.txWf, h.rxWf, h.progress, h.bounded, h.unknown, h.txHeld, h.rxHeld⟩

theorem Phases.of_port {s : State} (h : Phases s) (p : List Input) :
    Phases { s with port := p } :=
  ⟨h.ready, h.awaitingFlowControl, h.sending, h.sent, h.sendFlowControl, h.error, h.seqRest,
    h.seqCount, h.boundary⟩

@[simp] theorem transitionMap_port (i : Instr) (s : State) (p : List Input) :
    transitionMap i { s with port := p } = transitionMap i s := by
  cases i <;> rfl

/-- Invariants look at the buffers, the counts and `RXLV` alone. -/
theorem Inv.of_same {s t : State} (h : Inv s) (h1 : t.txbuf = s.txbuf) (h2 : t.rxbuf = s.rxbuf)
    (h3 : t.txlen = s.txlen) (h4 : t.rxcnt = s.rxcnt) (h5 : t.rxlen = s.rxlen)
    (h6 : t.rxlv = s.rxlv) (h7 : t.txprog ≤ t.txlen) : Inv t := by
  refine ⟨?_, ?_, h7, ?_, ?_, ?_, ?_⟩
  · rw [h1]; exact h.txWf
  · rw [h2]; exact h.rxWf
  · rw [h4, h5, h6]; exact h.bounded
  · rw [h4, h5, h6]; exact h.unknown
  · rw [h1, h3]; exact h.txHeld
  · rw [h2, h4]; exact h.rxHeld

/-- A transaction decodes to a row of the command format. -/
theorem decodeCommand_isCommand {c : Command} {i : Instr} (h : decode (.cmd c) = .ok i) :
    i = .reservedOp c.header ∨ (∃ raw, i = .decode raw) ∨ (∃ p a d, i = .encExt p a d) ∨
      (∃ a, i = .encStd a) ∨ (∃ t a f p, i = .load t a f p ∧ p.length ≤ 4095) ∨
      i = .produceNext ∨ i = .produceFc ∨ (∃ r d, i = .consume r d) ∨ i = .readStatus ∨
      ∃ j, i = .readRx j := by
  simp only [decode, decodeCommand] at h
  split at h
  · cases h; exact .inl rfl
  refine .inr ?_
  repeat' split at h
  all_goals first | (cases h; done) | (injection h with h; subst h)
  · exact .inl ⟨_, rfl⟩
  · exact .inr (.inl ⟨_, _, _, rfl⟩)
  · exact .inr (.inr (.inl ⟨_, rfl⟩))
  · rename_i _ _ hl
    have := (headerN c.header).isLt
    exact .inr (.inr (.inr (.inl ⟨_, _, _, _, rfl, by omega⟩)))
  all_goals simp

end Sys2Proof.Machine
end

