-- ==== Sys2Proof/Tests/Slice0.lean ====
section
/-! SUPPORT. The model's own tests: ill-formed terms refused, every row decoded from a word written out
from the spec's encoding, one step per row against the vectors of spec/95_test_vectors.md (their names
stand in the docstrings), and a witness for the hypotheses of every obligation that has any. -/

namespace Sys2Proof.Tests

open Sys2Proof.Machine

/-! ## Well-formedness -/

theorem test_wellFormed_refuses_long_payload :
    (Instr.load 0 false false (List.replicate 4096 0)).wellFormed = false := by
  rw [Instr.wellFormed, List.length_replicate]; rfl

theorem test_wellFormed_admits_full_payload :
    (Instr.load 0 false false (List.replicate 4095 0)).wellFormed = true := by
  rw [Instr.wellFormed, List.length_replicate]; rfl

theorem test_wellFormed_refuses_legal_header : (Instr.reservedOp 0x00000005).wellFormed = false := by
  decide

theorem test_wellFormed_refuses_standard_word : (Instr.idExt 0 0 0 0x7FF).wellFormed = false := by
  decide

theorem test_wellFormed_admits_first_extended_word :
    (Instr.idExt 0 0 0 0x800).wellFormed = true := by decide

/-! ## Decoding: words written out bit by bit -/

/-- R71, R72: `31:20 = 0, N = 0, 7:6 = 0, F = 0, A = 0, OP = 0001`. -/
theorem test_decode_DECODE :
    decode (.cmd ⟨0b00000000000000000000000000000001#32, [0x0C123ABC], []⟩) =
      .ok (.decode 0x0C123ABC) := by decide

theorem test_decode_ENC_EXT :
    decode (.cmd ⟨0b00000000000000000000000000000010#32, [3, 0x1234, 0x0ABC], []⟩) =
      .ok (.encExt 3 0x1234 0x0ABC) := by decide

theorem test_decode_ENC_STD :
    decode (.cmd ⟨0b00000000000000000000000000000011#32, [0x641], []⟩) = .ok (.encStd 0x641) := by
  decide

/-- `N = 000000000010`, `F = 1`, `A = 0` (H-1's payload). -/
theorem test_decode_LOAD_F :
    decode (.cmd ⟨0b00000000000000000000001000100100#32, [0x241], [0x1A, 0x90]⟩) =
      .ok (.load 0x241 false true [0x1A, 0x90]) := by decide

/-- `N = 000000000001`, `F = 0`, `A = 1`. -/
theorem test_decode_LOAD_A :
    decode (.cmd ⟨0b00000000000000000000000100010100#32, [0x7E0], [0x3E]⟩) =
      .ok (.load 0x7E0 true false [0x3E]) := by decide

theorem test_decode_PRODUCE_NEXT :
    decode (.cmd ⟨0b00000000000000000000000000000101#32, [], []⟩) = .ok .produceNext := by decide

theorem test_decode_PRODUCE_FC :
    decode (.cmd ⟨0b00000000000000000000000000000110#32, [], []⟩) = .ok .produceFc := by decide

/-- X-1. -/
theorem test_decode_CONSUME :
    decode (.cmd ⟨0b00000000000000000000000000000111#32, [0x641],
      [0x04, 0x5A, 0x90, 0x31, 0x32, 0xAA, 0xAB, 0xAC]⟩) =
      .ok (.consume 0x641 ⟨0x04, ⟨0x5A, 0x90, 0x31, 0x32, 0xAA, 0xAB, 0xAC⟩⟩) := by decide

theorem test_decode_READ_STATUS :
    decode (.cmd ⟨0b00000000000000000000000000001000#32, [], []⟩) = .ok .readStatus := by decide

/-- `N = 100000010011 = 0x813`. -/
theorem test_decode_READ_RX :
    decode (.cmd ⟨0b00000000000010000001001100001001#32, [], []⟩) = .ok (.readRx 0x813) := by decide

/-- R72: the reserved op codes (H-9, H-10), here under operands that no op code has. -/
theorem test_decode_RESERVED_OP :
    let hs : List Word :=
      [0b0000#32, 0b1010#32, 0b1011#32, 0b1100#32, 0b1101#32, 0b1110#32, 0b1111#32]
    hs.map (fun h => decode (.cmd ⟨h, [1], [2]⟩)) = hs.map (fun h => .ok (.reservedOp h)) := rfl

/-- R86: reserved bits (H-11 to H-15, and one bit more for each end of a reserved field). -/
theorem test_decode_RESERVED_bits :
    let hs : List Word :=
      [0x00000105, 0x00000015, 0x00000025, 0x00000044, 0x00000084, 0x00100004, 0x80000009, 0x00000039]
    hs.map (fun h => decode (.cmd ⟨h, [], []⟩)) = hs.map (fun h => .ok (.reservedOp h)) := rfl

/-- R76: 21 zero bits, then `ARBITRATION = 01001000001 = 0x241`. -/
theorem test_decode_ID_STD :
    decode (.ident 0b00000000000000000000001001000001#32) = .ok (.idStd 0x241) := by decide

/-- R75: pad `101`, `PRIORITY = 011`, `ARBITRATION = 0000010010001`, `SENDER = 1101010111100` (C-D7's
fields under pad bits). -/
theorem test_decode_ID_EXT :
    decode (.ident 0b10101100000100100011101010111100#32) = .ok (.idExt 5 3 0x0091 0x1ABC) := by
  decide

/-- R79, R80: PCI `0000`, `LEN = 0100`. -/
theorem test_decode_RX_SF :
    decode (.frame 0x641 ⟨0b00000100#8, ⟨1, 2, 3, 4, 5, 6, 7⟩⟩) =
      .ok (.rxSf 0x641 4 ⟨1, 2, 3, 4, 5, 6, 7⟩) := by decide

/-- R81: PCI `0001`, `LEN_HI = 1111`. -/
theorem test_decode_RX_FF :
    decode (.frame 0x641 ⟨0b00011111#8, ⟨1, 2, 3, 4, 5, 6, 7⟩⟩) =
      .ok (.rxFf 0x641 15 ⟨1, 2, 3, 4, 5, 6, 7⟩) := by decide

/-- R82: PCI `0010`, `SN = 1010`. -/
theorem test_decode_RX_CF :
    decode (.frame 0x641 ⟨0b00101010#8, ⟨1, 2, 3, 4, 5, 6, 7⟩⟩) =
      .ok (.rxCf 0x641 10 ⟨1, 2, 3, 4, 5, 6, 7⟩) := by decide

/-- R83: PCI `0011`, parameter `0001`. -/
theorem test_decode_RX_FC :
    decode (.frame 0x641 ⟨0b00110001#8, ⟨1, 2, 3, 4, 5, 6, 7⟩⟩) =
      .ok (.rxFc 0x641 1 ⟨1, 2, 3, 4, 5, 6, 7⟩) := by decide

/-- R86: PCI `0100`, the lowest reserved kind; the low 6 bits are `000101`. -/
theorem test_decode_RX_RSVD_4_7 :
    decode (.frame 0x641 ⟨0b01000101#8, ⟨1, 2, 3, 4, 5, 6, 7⟩⟩) =
      .ok (.rxRsvd47 0x641 0b000101 ⟨1, 2, 3, 4, 5, 6, 7⟩) := by decide

/-- R86: PCI `1100`; the low 7 bits are `1000101`. -/
theorem test_decode_RX_RSVD_8_F :
    decode (.frame 0x641 ⟨0b11000101#8, ⟨1, 2, 3, 4, 5, 6, 7⟩⟩) =
      .ok (.rxRsvd8F 0x641 0b1000101 ⟨1, 2, 3, 4, 5, 6, 7⟩) := by decide

/-- R73: PRODUCE_NEXT has no operand, CONSUME exactly 8 bytes, LOAD exactly `N`. -/
theorem test_decode_refuses_malformed :
    decode (.cmd ⟨0x00000005, [0], []⟩) = .error .operandMismatch ∧
    decode (.cmd ⟨0x00000007, [0x641], [0x30]⟩) = .error .operandMismatch ∧
    decode (.cmd ⟨0x00000234, [0x241], [0x1A]⟩) = .error .payloadLength := by decide

theorem test_decodeTableWord :
    decodeTableWord 32 0x00000234 = some (.load 0 true true [0, 0]) ∧
    decodeTableWord 32 0x00000005 = some .produceNext ∧
    decodeTableWord 32 0x00000000 = some (.reservedOp 0) ∧
    decodeTableWord 8 0x21 = some (.rxCf 0 1 ⟨0, 0, 0, 0, 0, 0, 0⟩) := by decide

/-! ## States for the tests -/

/-- What a step answers, where it answers a next state. -/
def after (o : Host.Outcome State Fault Refusal) : Option State :=
  match o with
  | .next s => some s
  | .fault _ => none
  | .refused _ => none

/-- The result record a step leaves. -/
def resultOf (o : Host.Outcome State Fault Refusal) : Option Result := (after o).bind (·.result)

/-- The state after LOAD of a payload under `0x241` (H-1 for `[1A 90]`). -/
def loaded (await fcen : Bool) (p : List Byte) : State :=
  { State.reset with
    tid := 0x241
    txlen := BitVec.ofNat 12 p.length
    txbuf := ⟨cellsFrom 0 p⟩
    await := await
    fcen := fcen }

/-- T-2's state: an unsegmented request sent, a reply awaited. -/
def asking : State := { loaded true true [0x1A, 0x90] with state := .awaitingReply, txprog := 2 }

/-- X-1's state: the reply `5A 90 31 32` taken. -/
def answered : State :=
  { asking with
    state := .completed
    rxlen := 4
    rxcnt := 4
    rxlv := true
    rxbuf := ⟨cellsFrom 0 [0x5A, 0x90, 0x31, 0x32]⟩ }

/-- X-11's state: a First Frame of 20 bytes taken. -/
def opened : State :=
  { asking with
    state := .sendFlowControl
    rxlen := 20
    rxcnt := 6
    rxlv := true
    rxbuf := ⟨cellsFrom 0 [0x40, 0x41, 0x42, 0x43, 0x44, 0x45]⟩ }

/-- P3's state after PRODUCE_FC: reassembly under way. -/
def reassembling : State := { opened with state := .awaitingReply }

/-- T-4's payload `A0` to `A7`. -/
def eightBytes : List Byte := [0xA0, 0xA1, 0xA2, 0xA3, 0xA4, 0xA5, 0xA6, 0xA7]

/-- T-4's state before T-4b: the First Frame sent and flow control received. -/
def resumed : State := { loaded true true eightBytes with state := .sending, txprog := 6 }

/-- T-4's state: the First Frame sent. -/
def waiting : State :=
  { loaded true true eightBytes with state := .awaitingFlowControl, txprog := 6 }

/-- T-14's state: everything sent, then a stray flow control. -/
def emptied : State := { loaded true true eightBytes with state := .sending, txprog := 8, seq := 1 }

/-- X-4's state: the terminal negative response `7F 1A 31`. -/
def failed : State :=
  { asking with
    state := .error
    rxlen := 3
    rxcnt := 3
    rxlv := true
    rxbuf := ⟨cellsFrom 0 [0x7F, 0x1A, 0x31]⟩ }

/-! ## One step of each row -/

/-- C-D7. -/
theorem test_DECODE_extended :
    resultOf (exec (.decode 0x0C123ABC) failed) = some ⟨.ok, .extendedId 3 0x0091 0x1ABC⟩ := by
  decide

/-- C-D3. -/
theorem test_DECODE_standard :
    resultOf (exec (.decode 0x7FF) failed) = some ⟨.ok, .standardId 0x7FF⟩ := by decide

/-- C-E1. -/
theorem test_ENC_EXT :
    resultOf (exec (.encExt 3 0x1234 0x0ABC) failed) = some ⟨.ok, .word 0x0E468ABC⟩ := by decide

/-- C-E10. -/
theorem test_ENC_EXT_masks :
    resultOf (exec (.encExt 0xFF 0xFFFF 0xFFFF) failed) = some ⟨.ok, .word 0x1FFFFFFF⟩ := by decide

/-- C-S5, C-S4. -/
theorem test_ENC_STD :
    resultOf (exec (.encStd 0x1FFF) failed) = some ⟨.ok, .word 0x7FF⟩ ∧
    resultOf (exec (.encStd 0x800) failed) = some ⟨.ok, .word 0⟩ := by decide

/-- H-1. -/
theorem test_LOAD :
    after (exec (.load 0x241 true true [0x1A, 0x90]) State.reset) =
      some { loaded true true [0x1A, 0x90] with result := some ⟨.ok, .none⟩ } := by decide

/-- H-3: `TXBUF` keeps its bytes above the new length. -/
theorem test_LOAD_leaves_ERROR :
    after (exec (.load 0x7FF false false []) failed) =
      some { State.reset with
        tid := 0x7FF
        txbuf := failed.txbuf
        rxbuf := failed.rxbuf
        result := some ⟨.ok, .none⟩ } := by decide

/-- T-2. -/
theorem test_PRODUCE_NEXT_single :
    after (exec .produceNext (loaded true true [0x1A, 0x90])) =
      some { asking with
        result := some ⟨.ok,
          .frame 0x241 0 ⟨0x02, ⟨0x1A, 0x90, 0xAA, 0xAA, 0xAA, 0xAA, 0xAA⟩⟩⟩ } := by decide

/-- T-4b. -/
theorem test_PRODUCE_NEXT_consecutive :
    after (exec .produceNext resumed) =
      some { resumed with
        state := .awaitingReply
        txprog := 8
        seq := 1
        result := some ⟨.ok,
          .frame 0x241 0 ⟨0x20, ⟨0xA6, 0xA7, 0xAA, 0xAA, 0xAA, 0xAA, 0xAA⟩⟩⟩ } := by decide

/-- F-1. -/
theorem test_PRODUCE_FC :
    after (exec .produceFc opened) =
      some { reassembling with
        result := some ⟨.ok, .frame 0x241 0 ⟨0x30, ⟨0, 0, 0, 0, 0, 0, 0⟩⟩⟩ } := by decide

/-- F-2. -/
theorem test_PRODUCE_FC_bad_state :
    after (exec .produceFc asking) = some { asking with result := some ⟨.badState, .none⟩ } := by
  decide

/-- X-1. -/
theorem test_CONSUME_reply :
    after (exec (.consume 0x641 ⟨0x04, ⟨0x5A, 0x90, 0x31, 0x32, 0xAA, 0xAA, 0xAA⟩⟩) asking) =
      some { answered with result := some ⟨.ok, .none⟩ } := by decide

/-- X-3b: the code at byte 3 is looked at, not the one at byte 2 or 4. -/
theorem test_CONSUME_pending :
    after (exec (.consume 0x641 ⟨0x03, ⟨0x7F, 0x78, 0x78, 0xAA, 0xAA, 0xAA, 0xAA⟩⟩) asking) =
      some { asking with result := some ⟨.pending, .none⟩ } ∧
    after (exec (.consume 0x641 ⟨0x03, ⟨0x7F, 0x78, 0x31, 0x78, 0xAA, 0xAA, 0xAA⟩⟩) asking) ≠
      some { asking with result := some ⟨.pending, .none⟩ } := by decide

/-- H-5. -/
theorem test_READ_STATUS :
    resultOf (exec .readStatus opened) = some ⟨.ok, .registers
      { state := 4, tid := 0x241, txlen := 2, txprog := 2, seq := 0, rxcnt := 6, rxlen := 20
        rxlv := 1, await := 1, fcen := 1 }⟩ := by decide

/-- H-6. -/
theorem test_READ_RX :
    resultOf (exec (.readRx 3) answered) = some ⟨.ok, .byte 0x32⟩ := by decide

/-- H-7. -/
theorem test_READ_RX_above :
    after (exec (.readRx 4) answered) = some { answered with result := some ⟨.badArg, .none⟩ } := by
  decide

/-- H-13. -/
theorem test_RESERVED_OP :
    after (exec (.reservedOp 0x44) answered) =
      some { answered with result := some ⟨.illegal, .none⟩ } := by decide

/-- C-D2. -/
theorem test_ID_STD :
    resultOf (exec (.idStd 0x241) asking) = some ⟨.ok, .standardId 0x241⟩ := by decide

/-- C-D14: bits 31:29 are ignored. -/
theorem test_ID_EXT :
    resultOf (exec (.idExt 7 0 0 0) asking) = some ⟨.ok, .extendedId 0 0 0⟩ := by decide

/-- X-7: the length nibble 15 is declared, 7 bytes are held. -/
theorem test_RX_SF_clamped :
    after (exec (.rxSf 0x641 15 ⟨1, 2, 3, 4, 5, 6, 7⟩) asking) =
      some { asking with
        state := .completed
        rxlen := 15
        rxcnt := 7
        rxlv := true
        rxbuf := ⟨cellsFrom 0 [1, 2, 3, 4, 5, 6, 7]⟩
        result := some ⟨.ok, .none⟩ } := by decide

/-- X-4. -/
theorem test_RX_SF_error :
    after (exec (.rxSf 0x641 3 ⟨0x7F, 0x1A, 0x31, 0xAA, 0xAA, 0xAA, 0xAA⟩) asking) =
      some { failed with result := some ⟨.ok, .none⟩ } := by decide

/-- X-11. -/
theorem test_RX_FF :
    after (exec (.rxFf 0x641 0 ⟨0x14, 0x40, 0x41, 0x42, 0x43, 0x44, 0x45⟩) asking) =
      some { opened with result := some ⟨.ok, .none⟩ } := by decide

/-- X-9: a First Frame of 3 bytes. -/
theorem test_RX_FF_short :
    after (exec (.rxFf 0x641 0 ⟨0x03, 0xD1, 0xD2, 0xD3, 0xEE, 0xEE, 0xEE⟩) asking) =
      some { asking with
        state := .completed
        rxlen := 3
        rxcnt := 3
        rxlv := true
        rxbuf := ⟨cellsFrom 0 [0xD1, 0xD2, 0xD3]⟩
        result := some ⟨.ok, .none⟩ } := by decide

/-- P3, its sixth command. -/
theorem test_RX_CF :
    after (exec (.rxCf 0x641 1 ⟨0x46, 0x47, 0x48, 0x49, 0x4A, 0x4B, 0x4C⟩) reassembling) =
      some { reassembling with
        rxcnt := 13
        rxbuf := ⟨cellsFrom 0
          [0x40, 0x41, 0x42, 0x43, 0x44, 0x45, 0x46, 0x47, 0x48, 0x49, 0x4A, 0x4B, 0x4C]⟩
        result := some ⟨.ok, .none⟩ } := by decide

/-- X-17. -/
theorem test_RX_CF_without_length :
    after (exec (.rxCf 0x641 1 ⟨9, 0xAA, 0xAA, 0xAA, 0xAA, 0xAA, 0xAA⟩) asking) =
      some { asking with result := some ⟨.ignored, .none⟩ } := by decide

/-- X-21. -/
theorem test_RX_FC :
    after (exec (.rxFc 0x641 0 ⟨0, 0, 0, 0, 0, 0, 0⟩) waiting) =
      some { resumed with result := some ⟨.ok, .none⟩ } := by decide

/-- X-18. -/
theorem test_RX_RSVD_4_7 :
    after (exec (.rxRsvd47 0x641 5 ⟨0, 0, 0, 0, 0, 0, 0⟩) asking) =
      some { asking with result := some ⟨.ignored, .none⟩ } := by decide

theorem test_RX_RSVD_8_F :
    after (exec (.rxRsvd8F 0x641 5 ⟨0, 0, 0, 0, 0, 0, 0⟩) asking) =
      some { asking with result := some ⟨.ignored, .none⟩ } := by decide

/-- T-8: the first 8 of 10 bytes. -/
theorem test_TX_RAW :
    after (exec .txRaw (loaded true false [1, 2, 3, 4, 5, 6, 7, 8, 9, 10])) =
      some { loaded true false [1, 2, 3, 4, 5, 6, 7, 8, 9, 10] with
        state := .awaitingReply
        txprog := 8
        result := some ⟨.ok, .frame 0x241 0 ⟨1, ⟨2, 3, 4, 5, 6, 7, 8⟩⟩⟩ } := by decide

/-- T-1: an empty payload. -/
theorem test_TX_SF_empty :
    after (exec .txSf (loaded true true [])) =
      some { loaded true true [] with
        state := .awaitingReply
        result := some ⟨.ok,
          .frame 0x241 0 ⟨0, ⟨0xAA, 0xAA, 0xAA, 0xAA, 0xAA, 0xAA, 0xAA⟩⟩⟩ } := by decide

/-- T-4. -/
theorem test_TX_FF :
    after (exec .txFf (loaded true true eightBytes)) =
      some { waiting with
        result := some ⟨.ok,
          .frame 0x241 0 ⟨0x10, ⟨0x08, 0xA0, 0xA1, 0xA2, 0xA3, 0xA4, 0xA5⟩⟩⟩ } := by decide

/-- T-12: the length `0x123` in the First Frame's first two bytes. -/
theorem test_TX_FF_length : firstHeader 0x123 = [0x11, 0x23] := by decide

/-- T-5's last frame: without `AWAIT` the transfer completes. -/
theorem test_TX_CF :
    after (exec .txCf { resumed with await := false }) =
      some { resumed with
        await := false
        state := .completed
        txprog := 8
        seq := 1
        result := some ⟨.ok,
          .frame 0x241 0 ⟨0x20, ⟨0xA6, 0xA7, 0xAA, 0xAA, 0xAA, 0xAA, 0xAA⟩⟩⟩ } := by decide

/-- T-10: the counter wraps after `2F`. -/
theorem test_TX_CF_wraps :
    (after (exec .txCf { resumed with seq := 15 })).map (·.seq) = some 0 := by decide

/-- T-14. -/
theorem test_TX_NONE :
    after (exec .txNone emptied) =
      some { emptied with
        state := .awaitingReply
        result := some ⟨.nothingToSend, .none⟩ } := by decide

/-- F-1. -/
theorem test_TX_FC :
    resultOf (exec .txFc opened) =
      some ⟨.ok, .frame 0x241 0 ⟨0x30, ⟨0, 0, 0, 0, 0, 0, 0⟩⟩⟩ := by decide

/-! ## The machine -/

/-- T-13: the first command after reset. -/
theorem test_step_runs_a_table_word :
    after (step (State.reset.withFetchWord 32 0x00000005)) =
      some { State.reset with
        state := .completed
        result := some ⟨.ok,
          .frame 0 0 ⟨0xAA, ⟨0xAA, 0xAA, 0xAA, 0xAA, 0xAA, 0xAA, 0xAA⟩⟩⟩ } := by decide

/-- R210 after P4's third command. -/
theorem test_step_reset :
    after (step { failed with port := [.reset, .command ⟨0x8, [], []⟩] }) =
      some { State.reset with port := [.command ⟨0x8, [], []⟩] } := by decide

/-- The buffers after reset are in canonical form. -/
theorem test_reset_memory_wf :
    State.reset.txbuf.wf Config.TX_CAP ∧ State.reset.rxbuf.wf Config.RX_CAP := by decide

/-- A byte written again replaces the one listed (R58). -/
theorem test_write_replaces :
    ((((⟨[]⟩ : Memory).write 3 1).write 1 2).write 3 9).cells = [(1, 2), (3, 9)] := by decide

/-! ## Witnesses: the hypotheses of the obligations can be met

`P → Q` clauses get one witness for each clause, at a value where clauses meet. -/

theorem witness_DecodeReadsFieldsByValue :
    (0x7FF : Word).toNat < 0x800 ∧ 0x800 ≤ (0x800 : Word).toNat := by decide

theorem witness_ExtendedRoundTripButForStandardWords :
    ((7 : Word).toNat < 8 ∧ (0x1FFF : Word).toNat < 0x2000) ∧
    ¬ ((0 : Word).toNat = 0 ∧ (0 : Word).toNat = 0 ∧ (0x800 : Word).toNat < 0x800) ∧
    ((0 : Word).toNat = 0 ∧ (0x7FF : Word).toNat < 0x800) := by decide

theorem witness_DecodeIgnoresPadBits :
    0x800 ≤ (0x20000000 : Word).toNat ∧ 0x800 ≤ (0xE0000000 : Word).toNat ∧
    (0x20000000 : Word).toNat % 2 ^ 29 = (0xE0000000 : Word).toNat % 2 ^ 29 := by decide

theorem witness_ProduceNextNeedsReadyOrSending :
    waiting.state ≠ .ready ∧ waiting.state ≠ .sending := by decide

theorem witness_RawFrameCarriesPayloadVerbatim :
    let s := loaded true false [1, 2, 3]
    (s.state = .ready ∨ s.state = .sending) ∧ s.fcen = false ∧
    Instr.txRaw ∈ [Instr.produceNext, .txRaw] ∧
    2 < min s.txlen.toNat 8 ∧ s.txbuf.read 2 = some 3 ∧ s.txlen.toNat ≤ 3 := by decide

theorem witness_ShortPayloadGoesUnsegmented :
    let s := loaded true true [1, 2, 3, 4, 5, 6]
    (s.state = .ready ∨ s.state = .sending) ∧ s.fcen = true ∧ s.txlen.toNat < 8 ∧
    Instr.txSf ∈ [Instr.produceNext, .txSf] ∧
    5 < s.txlen.toNat ∧ s.txbuf.read 5 = some 6 ∧ s.txlen.toNat < 7 := by decide

theorem witness_LongPayloadOpensWithFirstFrame :
    let s := loaded true true eightBytes
    (s.state = .ready ∨ s.state = .sending) ∧ s.fcen = true ∧ 8 ≤ s.txlen.toNat ∧
    s.txprog = 0 ∧ Instr.txFf ∈ [Instr.produceNext, .txFf] ∧ s.txbuf.read 5 = some 0xA5 := by decide

theorem witness_ConsecutiveFrameCarriesNextBytes :
    (resumed.state = .ready ∨ resumed.state = .sending) ∧ resumed.fcen = true ∧
    8 ≤ resumed.txlen.toNat ∧ resumed.txprog ≠ 0 ∧ resumed.txprog.toNat < resumed.txlen.toNat ∧
    Instr.txCf ∈ [Instr.produceNext, .txCf] ∧
    1 < min 7 (resumed.txlen.toNat - resumed.txprog.toNat) ∧
    resumed.txbuf.read (resumed.txprog.toNat + 1) = some 0xA7 ∧
    resumed.txlen.toNat - resumed.txprog.toNat < 3 := by decide

theorem witness_NothingLeftReturnsToPostSend :
    (emptied.state = .ready ∨ emptied.state = .sending) ∧ emptied.fcen = true ∧
    8 ≤ emptied.txlen.toNat ∧ emptied.txprog = emptied.txlen ∧
    Instr.txNone ∈ [Instr.produceNext, .txNone] := by decide

theorem witness_FlowControlFrameOnlyWhenDue :
    opened.state = .sendFlowControl ∧ asking.state ≠ .sendFlowControl ∧
    Instr.txFc ∈ [Instr.produceFc, .txFc] := by decide

theorem witness_EmittedFramesAreAddressed :
    ∃ t, exec .txFc opened = .next t ∧
      t.result = some ⟨.ok, .frame 0x241 0 ⟨0x30, ⟨0, 0, 0, 0, 0, 0, 0⟩⟩⟩ :=
  ⟨_, rfl, by decide⟩

theorem witness_OnlyLoadWritesTheTransfersSettings :
    (∀ tidin a f p, Instr.produceNext ≠ .load tidin a f p) ∧
    ∃ t, exec .produceNext resumed = .next t :=
  ⟨fun _ _ _ _ => Instr.noConfusion, _, rfl⟩

theorem witness_ProduceWritesOnlyTheSendSide :
    (∃ t, exec .txCf resumed = .next t) ∧ (∃ t, exec .txFc opened = .next t) :=
  ⟨⟨_, rfl⟩, ⟨_, rfl⟩⟩

theorem witness_BranchRowsStopWhereNotSelected :
    (waiting.state ≠ .ready ∧ waiting.state ≠ .sending ∧
      Instr.txFf ∈ [Instr.txRaw, .txSf, .txFf, .txCf, .txNone]) ∧
    (resumed.state = .ready ∨ resumed.state = .sending) ∧
    resumed.fcen = true ∧ 8 ≤ resumed.txlen.toNat ∧ resumed.txprog ≠ 0 ∧
    resumed.txprog.toNat < resumed.txlen.toNat ∧
    (emptied.state = .ready ∨ emptied.state = .sending) ∧
    emptied.txlen.toNat ≤ emptied.txprog.toNat := by decide

theorem witness_OtherIdentifiersAreIgnored :
    (0x642 : Word).toNat % 256 ≠ asking.tid.toNat % 256 := by decide

theorem witness_FramesOutsideTheGateAreIgnored :
    waiting.state ≠ .awaitingReply ∧
    ¬ (waiting.state = .awaitingFlowControl ∧ (0x2F : Byte).toNat / 16 = 3) ∧
    opened.state ≠ .awaitingReply ∧ opened.state ≠ .awaitingFlowControl ∧
    ¬ (opened.state = .awaitingFlowControl ∧ (0x30 : Byte).toNat / 16 = 3) := by decide

theorem witness_ResponsePendingChangesNothing :
    let tail : FrameTail := ⟨0x7F, 0x1A, 0x78, 0xAA, 0xAA, 0xAA, 0xAA⟩
    (0x641 : Word).toNat % 256 = asking.tid.toNat % 256 ∧ asking.state = .awaitingReply ∧
    tail.d1 = asking.params.negSid ∧
    nrcByte asking.params.nrcIndex tail = asking.params.nrcPending := by decide

theorem witness_UnsegmentedReplyEndsTheTransfer :
    let tail : FrameTail := ⟨0x7F, 0x1A, 0x31, 0xAA, 0xAA, 0xAA, 0xAA⟩
    (0x641 : Word).toNat % 256 = asking.tid.toNat % 256 ∧ asking.state = .awaitingReply ∧
    ¬ (tail.d1 = asking.params.negSid ∧
      nrcByte asking.params.nrcIndex tail = asking.params.nrcPending) := by decide

theorem witness_FirstFrameOpensReassembly :
    (0x641 : Word).toNat % 256 = asking.tid.toNat % 256 ∧ asking.state = .awaitingReply := by decide

theorem witness_ConsecutiveFrameNeedsALength :
    asking.rxlv = false ∧
    Instr.rxCf 0x641 1 ⟨9, 9, 9, 9, 9, 9, 9⟩ ∈
      [Instr.rxCf 0x641 1 ⟨9, 9, 9, 9, 9, 9, 9⟩,
        .consume 0x641 ⟨0x2#4 ++ 1#4, ⟨9, 9, 9, 9, 9, 9, 9⟩⟩] := by decide

theorem witness_ConsecutiveFrameAppendsUpToTheLength :
    (0x641 : Word).toNat % 256 = reassembling.tid.toNat % 256 ∧
    reassembling.state = .awaitingReply ∧ reassembling.rxlv = true ∧
    6 < min 7 (reassembling.rxlen.toNat - reassembling.rxcnt.toNat) ∧
    5 < reassembling.rxcnt.toNat ∧
    reassembling.rxcnt.toNat + min 7 (reassembling.rxlen.toNat - reassembling.rxcnt.toNat) ≤ 13 := by
  decide

theorem witness_FlowControlResumesSending :
    (0x641 : Word).toNat % 256 = waiting.tid.toNat % 256 ∧
    (waiting.state = .awaitingReply ∨ waiting.state = .awaitingFlowControl) ∧
    (0x641 : Word).toNat % 256 = asking.tid.toNat % 256 ∧
    (asking.state = .awaitingReply ∨ asking.state = .awaitingFlowControl) := by decide

theorem witness_ReservedKindsAreIgnored : 4 ≤ (0x40 : Byte).toNat / 16 := by decide

theorem witness_OnlyTheLowIdentifierByteMatters :
    (0x641 : Word).toNat % 256 = (0x18DA0141 : Word).toNat % 256 := by decide

theorem witness_ErrorKeepsTheNegativeResponse :
    asking.state ≠ .error ∧
    ∃ t, exec (.rxSf 0x641 3 ⟨0x7F, 0x1A, 0x31, 0xAA, 0xAA, 0xAA, 0xAA⟩) asking = .next t ∧
      t.state = .error :=
  ⟨by decide, _, rfl, by decide⟩

theorem witness_LoadStartsANewTransfer :
    (0x7FF : Word).toNat < 0x800 ∧ ([0x1A, 0x90] : List Byte).length ≤ 4095 := by decide

theorem witness_PayloadWriteIsTheLoopOfByteWrites :
    failed.txbuf.wf 4095 ∧ eightBytes.length ≤ 4095 := by decide

theorem witness_LoadRefusesExtendedIdentifiers : 0x800 ≤ (0x800 : Word).toNat := by decide

theorem witness_ReadRxAnswersHeldBytesOnly :
    answered.rxcnt.toNat ≤ (4 : BitVec 12).toNat ∧ (3 : BitVec 12).toNat < answered.rxcnt.toNat ∧
    answered.rxbuf.read (3 : BitVec 12).toNat = some 0x32 := by decide

/-- One header for each clause, the others' bits clear. -/
theorem witness_IllegalHeadersHaveNoEffect :
    ({ answered with port := [.command ⟨0x44, [], []⟩] } : State).port = [.command ⟨0x44, [], []⟩] ∧
    (0x00000000 : Word).toNat % 16 = 0 ∧ 10 ≤ (0x0000000A : Word).toNat % 16 ∧
    (0x00100004 : Word).toNat / 2 ^ 20 ≠ 0 ∧ (0x00000044 : Word).toNat / 2 ^ 6 % 4 ≠ 0 ∧
    ((0x00000105 : Word).toNat % 16 ≠ 4 ∧ (0x00000105 : Word).toNat % 16 ≠ 9 ∧
      (0x00000105 : Word).toNat / 2 ^ 8 % 4096 ≠ 0) ∧
    ((0x00000039 : Word).toNat % 16 ≠ 4 ∧ (0x00000039 : Word).toNat / 2 ^ 4 % 4 ≠ 0) := by decide

theorem witness_ReadsHaveNoSideEffect :
    Instr.readRx 3 ∈
      [Instr.decode 0, .encExt 0 0 0, .encStd 0, .readStatus, .readRx 3] := by decide

theorem witness_EveryResultHasItsFields : ∃ t, exec (.readRx 3) answered = .next t := ⟨_, rfl⟩

theorem witness_OtherStatusesMeanNoEffect :
    ∃ t, exec .produceFc asking = .next t ∧ t.result = some ⟨.badState, .none⟩ ∧
      Status.badState ≠ .ok ∧ Status.badState ≠ .nothingToSend :=
  ⟨_, rfl, by decide, by decide, by decide⟩

theorem witness_StepRunsTheDecodedCommand :
    ({ asking with port := [.command ⟨0x309, [], []⟩] } : State).port =
      [.command ⟨0x309, [], []⟩] ∧
    decode (.cmd ⟨0x309, [], []⟩) = .ok (.readRx 3) := by decide

theorem witness_NothingHappensWithoutACommand : asking.port = [] := by decide

/-- The header's conditions, and for each clause a length next to the one R73 asks for: a LOAD of two
bytes with one or with two, a CONSUME of nine bytes or of eight, a PRODUCE_NEXT with an operand. -/
theorem witness_MalformedTransactionsAreRefused :
    let load := (0x234 : Word).toNat
    let consume := (0x7 : Word).toNat
    ({ asking with port := [.command ⟨0x234, [0x241], [0x1A]⟩] } : State).port =
      [.command ⟨0x234, [0x241], [0x1A]⟩] ∧
    (load % 16 = 4 ∧ load / 2 ^ 20 = 0 ∧ load / 2 ^ 6 % 4 = 0 ∧ load / 2 ^ 8 % 4096 = 2) ∧
    ([0x1A] : List Byte).length ≠ load / 2 ^ 8 % 4096 ∧
    ([0x1A, 0x90] : List Byte).length = load / 2 ^ 8 % 4096 ∧
    (consume % 16 = 7 ∧ consume / 2 ^ 20 = 0 ∧ consume / 2 ^ 6 % 4 = 0 ∧
      consume / 2 ^ 8 % 4096 = 0 ∧ consume / 2 ^ 4 % 4 = 0) ∧
    ([0, 0, 0, 0, 0, 0, 0, 0, 0] : List Byte).length ≠ 8 ∧
    ([0, 0, 0, 0, 0, 0, 0, 0] : List Byte).length = 8 ∧
    ((0x5 : Word).toNat % 16 = 5 ∧ ([0] : List Word).length ≠ 0) := by decide

theorem witness_ResetEventSetsEveryRegister :
    ({ failed with port := [.reset] } : State).port = [.reset] := by decide

theorem witness_EveryPresentedCommandCompletes :
    PortWf { asking with port := [.command ⟨0x8, [], []⟩, .reset] } ∧
    ({ asking with port := [.command ⟨0x8, [], []⟩, .reset] } : State).port =
      [.command ⟨0x8, [], []⟩, .reset] := by decide

theorem witness_TransitionsAreTheMaps :
    (∃ t, step asking = .next t) ∧ asking.port = [] ∧
    (∃ t, step { failed with port := [.reset] } = .next t) ∧
    (∃ t, step { resumed with port := [.command ⟨0x5, [], []⟩] } = .next t) ∧
    decode (.cmd ⟨0x5, [], []⟩) = .ok .produceNext :=
  ⟨⟨_, rfl⟩, rfl, ⟨_, rfl⟩, ⟨_, rfl⟩, by decide⟩

theorem witness_OnlyLoadOrResetLeavesATerminalState :
    (answered.state = .completed ∨ answered.state = .error) ∧
    (failed.state = .completed ∨ failed.state = .error) ∧
    ∃ t, step { failed with port := [.command ⟨0x5, [], []⟩] } = .next t :=
  ⟨by decide, by decide, _, rfl⟩

theorem witness_ParametersNeverChange :
    ∃ t, step { asking with port := [.command ⟨0x5, [], []⟩] } = .next t := ⟨_, rfl⟩

/-- T-4's sender between two frames, about to send its last two bytes. -/
def resumedAtPort : State := { resumed with port := [.command ⟨0x5, [], []⟩] }

theorem witness_StepKeepsTheStateInvariants :
    Inv resumedAtPort ∧ ∃ t, step resumedAtPort = .next t :=
  ⟨⟨by decide, by decide, by decide, by decide, by decide, by decide, by decide⟩, _, rfl⟩

theorem segmented_resumed : segmented resumedAtPort := ⟨rfl, by decide⟩

theorem witness_StepKeepsThePhasesAndTheCounter :
    Inv resumedAtPort ∧ Phases resumedAtPort ∧ ∃ t, step resumedAtPort = .next t :=
  ⟨witness_StepKeepsTheStateInvariants.1,
    ⟨by decide, fun h => absurd h (by decide), fun _ _ => by decide,
      fun h => absurd h (by decide), by decide, by decide, fun h => absurd segmented_resumed h,
      fun _ => by decide, fun _ _ _ => by decide⟩, _, rfl⟩

/-- `reassembling` with stale bytes above its count. -/
def stale : State :=
  { reassembling with rxbuf := reassembling.rxbuf.write 9 0xEE }

theorem witness_BytesAboveTheCountsAreNeverSeen :
    reassembling ≠ stale ∧ SameBelowCounts reassembling stale ∧ ∃ t, step reassembling = .next t :=
  ⟨by decide, ⟨rfl, by decide, by decide⟩, _, rfl⟩

theorem witness_DecodeReadsBackWhatEncodeWrites :
    (Instr.idExt 0 0 0 0x800).wellFormed = true ∧
    encode (.idExt 0 0 0 0x800) = some (.ident 0x800) ∧ encode .txFc = none ∧
    decode (.cmd ⟨0x234, [0x241], [0x1A, 0x90]⟩) = .ok (.load 0x241 true true [0x1A, 0x90]) ∧
    decode (.cmd ⟨0x105, [7], []⟩) = .ok (.reservedOp 0x105) ∧
    illegalHeader 0x105 = true := by decide

/-- An empty payload and one of two bytes; the receiver waits for a reply under another identifier with
the same low byte. -/
theorem witness_UnsegmentedPayloadArrives :
    let a := loaded true true [0x1A, 0x90]
    let e := loaded true true []
    let b := { asking with tid := 0x641 }
    (a.state = .ready ∨ a.state = .sending) ∧ a.fcen = true ∧ a.txlen.toNat < 8 ∧
    b.state = .awaitingReply ∧ a.tid.toNat % 256 = b.tid.toNat % 256 ∧
    a.txlen ≠ 0 ∧ txByte a 0 ≠ b.params.negSid ∧
    (e.state = .ready ∨ e.state = .sending) ∧ e.fcen = true ∧ e.txlen = 0 ∧
    b.params.negSid ≠ 0xAA := by decide

theorem witness_FirstFrameAndFlowControlOpenLockstep :
    let a := loaded true true eightBytes
    (a.state = .ready ∨ a.state = .sending) ∧ segmented a ∧ a.txprog = 0 ∧
    asking.state = .awaitingReply ∧ a.tid.toNat % 256 = asking.tid.toNat % 256 :=
  ⟨by decide, ⟨rfl, by decide⟩, rfl, rfl, rfl⟩

/-- The receiver of T-4's First Frame after its PRODUCE_FC. -/
def receiving : State :=
  { asking with
    tid := 0x641
    rxlen := 8
    rxcnt := 6
    rxlv := true
    rxbuf := ⟨cellsFrom 0 [0xA0, 0xA1, 0xA2, 0xA3, 0xA4, 0xA5]⟩ }

theorem witness_SegmentedPayloadArrives : Lockstep resumed receiving :=
  ⟨⟨rfl, by decide⟩, rfl, by decide, by decide, rfl, ⟨rfl, rfl⟩, rfl, by decide, by decide⟩

end Sys2Proof.Tests
end

section
/-! ## Scope: the parameters and the idle step (R8, R10)

The parameters are followed through the shared operations, then through `Effect`, which lists everything
a command can do, and `step_cases`, which lists everything a step can do. -/

namespace Sys2Proof.Machine

/-! ### The parameters after each operation -/

@[simp] theorem txRawFrame_params (s : State) : (txRawFrame s).params = s.params := rfl
@[simp] theorem txSingleFrame_params (s : State) : (txSingleFrame s).params = s.params := rfl
@[simp] theorem txFirstFrame_params (s : State) : (txFirstFrame s).params = s.params := rfl
@[simp] theorem txConsecutiveFrame_params (s : State) :
    (txConsecutiveFrame s).params = s.params := rfl
@[simp] theorem txNothing_params (s : State) : (txNothing s).params = s.params := rfl
@[simp] theorem txFlowControl_params (s : State) : (txFlowControl s).params = s.params := rfl
@[simp] theorem rxFlowControl_params (s : State) : (rxFlowControl s).params = s.params := rfl
@[simp] theorem resetEvent_params (s : State) : (resetEvent s).params = s.params := rfl

@[simp] theorem rxSingle_params (n : BitVec 4) (d : FrameTail) (s : State) :
    (rxSingle n d s).params = s.params := by
  unfold rxSingle
  split
  · exact answer_params _ _ s
  · simp

@[simp] theorem rxFirst_params (n : BitVec 4) (d : FrameTail) (s : State) :
    (rxFirst n d s).params = s.params := by
  simp [rxFirst]

@[simp] theorem rxConsecutive_params (d : FrameTail) (s : State) :
    (rxConsecutive d s).params = s.params := by
  unfold rxConsecutive
  split
  · simp
  · exact answer_params _ _ s

theorem execLoad_params {tidin : Word} {a f : Bool} {p : List Byte} {s t : State}
    (h : execLoad tidin a f p s = .next t) : t.params = s.params := by
  unfold execLoad at h
  split at h <;> (cases h; rfl)

/-! ### The parameters after a command and after a step -/

theorem Effect.params_eq {i : Instr} {s t : State} (h : Effect i s t) : t.params = s.params := by
  cases h with
  | quiet st f => exact answer_params st f s
  | load tidin a f p t hi ht hload => exact execLoad_params hload
  | raw => exact txRawFrame_params s
  | single => exact txSingleFrame_params s
  | first => exact txFirstFrame_params s
  | consecutive => exact txConsecutiveFrame_params s
  | nothing => exact txNothing_params s
  | flowControl => exact txFlowControl_params s
  | rxSingle rxid n d => exact rxSingle_params n d s
  | rxFirst rxid n d => exact rxFirst_params n d s
  | rxConsecutive rxid n d => exact rxConsecutive_params d s
  | rxFlowControl => exact rxFlowControl_params s

theorem exec_params {i : Instr} {s t : State} (h : exec i s = .next t) : t.params = s.params :=
  (exec_effect h).params_eq

theorem step_params {s t : State} (h : step s = .next t) : t.params = s.params := by
  obtain ⟨-, rfl⟩ | ⟨rest, -, rfl⟩ | ⟨c, rest, i, -, -, hexec⟩ := step_cases h
  · rfl
  · exact resetEvent_params _
  · have htaken : t.params = { s with port := rest }.params := exec_params hexec
    exact htaken

/-! ### The idle step -/

theorem takeInput_of_port_nil {s : State} (h : s.port = []) : takeInput s = none := by
  simp [takeInput, h]

theorem step_of_port_nil {s : State} (h : s.port = []) : step s = .next s := by
  simp [step, takeInput_of_port_nil h]

/-! ### The obligations of the scope -/

/-- Settles O51: whatever a step takes from the port, an event of either kind or none, it keeps
`params` (R10). -/
theorem parametersNeverChange : Obligations.ParametersNeverChange :=
  fun _ _ h => step_params h

/-- Settles O44: an empty port gives `takeInput` nothing to take (R8). -/
theorem nothingHappensWithoutACommand : Obligations.NothingHappensWithoutACommand :=
  fun _ h => step_of_port_nil h

end Sys2Proof.Machine
end

section
/-! ## State: the invariants, the phases and the transitions (10_state.md R26, R30, R33 to R38)

Each invariant is followed through the shared operations, then through `Effect`, then through
`step_cases`. -/

namespace Sys2Proof.Machine

/-! ### The invariants of R33 through the shared operations -/

theorem Inv.answer {s : State} (h : Inv s) (st : Status) (f : Fields) : Inv (answer st f s) :=
  h.of_same rfl rfl rfl rfl rfl rfl h.progress

/-- A declared length starts an empty reply (R146, R149). -/
theorem Inv.rxDeclare {s : State} (h : Inv s) (len : BitVec 12) : Inv (rxDeclare len s) where
  txWf := h.txWf
  rxWf := h.rxWf
  progress := h.progress
  bounded _ := BitVec.le_def.2 (Nat.zero_le _)
  unknown hlv := absurd hlv (by simp)
  txHeld := h.txHeld
  rxHeld i hi := absurd hi (Nat.not_lt_zero i)

/-- An append below the declared length (R54). -/
theorem Inv.rxAppend {s : State} (h : Inv s) (hlv : s.rxlv = true) (hlt : s.rxcnt < s.rxlen)
    (v : Byte) : Inv (rxAppend v s) := by
  rw [BitVec.lt_def] at hlt
  have hlen := s.rxlen.isLt
  have hcnt : (Machine.rxAppend v s).rxcnt.toNat = s.rxcnt.toNat + 1 :=
    rxAppend_rxcnt_toNat (by omega)
  refine
    { txWf := h.txWf
      rxWf := write_wf h.rxWf (by simp only [Config.RX_CAP]; omega) v
      progress := h.progress
      bounded := fun _ => by rw [BitVec.le_def, hcnt]; exact hlt
      unknown := fun hu => absurd hu (by simp [hlv])
      txHeld := h.txHeld
      rxHeld := fun i hi => ?_ }
  rw [hcnt] at hi
  rw [rxAppend_rxbuf, read_write]
  split
  · rfl
  · exact h.rxHeld i (by omega)

theorem Inv.rxAppendAll {l : List Byte} {s : State} (h : Inv s) (hlv : s.rxlv = true)
    (hroom : s.rxcnt.toNat + l.length ≤ s.rxlen.toNat) : Inv (rxAppendAll l s) := by
  induction l generalizing s with
  | nil => exact h
  | cons v l ih =>
    simp only [List.length_cons] at hroom
    have hlen := s.rxlen.isLt
    refine ih (h.rxAppend hlv (BitVec.lt_def.2 (by omega)) v) hlv ?_
    rw [rxAppend_rxcnt_toNat (by omega), rxAppend_rxlen]
    omega

theorem Inv.rxAppendBounded {l : List Byte} {s : State} (h : Inv s) (hlv : s.rxlv = true) :
    Inv (rxAppendBounded l s) := by
  induction l generalizing s with
  | nil => exact h
  | cons v l ih =>
    rw [Machine.rxAppendBounded]
    split
    · rename_i hlt
      exact ih (h.rxAppend hlv hlt v) hlv
    · exact h

/-- A frame that declares a length and brings at most as many bytes (R146, R149). -/
theorem Inv.rxDeclare_append {s : State} (h : Inv s) {len : BitVec 12} {l : List Byte}
    (hl : l.length ≤ len.toNat) : Inv (Machine.rxAppendAll l (Machine.rxDeclare len s)) :=
  (h.rxDeclare len).rxAppendAll rfl (by simpa using hl)

/-- Changing `STATE` and the result touches no invariant. -/
theorem Inv.answer_state {s : State} (h : Inv s) (st : Status) (f : Fields) (x : XferState) :
    Inv (Machine.answer st f { s with state := x }) :=
  h.of_same rfl rfl rfl rfl rfl rfl h.progress

/-! ### The invariants of R33 through every command -/

theorem Inv.execLoad {tidin : Word} {a f : Bool} {p : List Byte} {s t : State} (h : Inv s)
    (hload : execLoad tidin a f p s = .next t) : Inv t := by
  unfold Machine.execLoad at hload
  split at hload <;> cases hload
  · exact h.answer _ _
  have hn : (BitVec.ofNat 12 p.length).toNat ≤ p.length := by
    rw [BitVec.toNat_ofNat]; exact Nat.mod_le ..
  have hlen : (p.take (BitVec.ofNat 12 p.length).toNat).length =
      (BitVec.ofNat 12 p.length).toNat := by rw [List.length_take, Nat.min_eq_left hn]
  refine
    { txWf := writePayload_wf h.txWf (by
        rw [hlen]; exact Nat.le_of_lt_succ (BitVec.ofNat 12 p.length).isLt)
      rxWf := h.rxWf
      progress := BitVec.le_def.2 (Nat.zero_le _)
      bounded := fun _ => BitVec.le_def.2 (Nat.zero_le _)
      unknown := fun _ => ⟨rfl, rfl⟩
      txHeld := fun i hi => ?_
      rxHeld := fun i hi => absurd hi (Nat.not_lt_zero i) }
  have hi : i < (p.take (BitVec.ofNat 12 p.length).toNat).length := hlen.symm ▸ hi
  rw [answer_txbuf, read_writePayload, if_pos hi, List.getElem?_eq_getElem hi]
  rfl

theorem txRawFrame_txprog_le (s : State) : (txRawFrame s).txprog ≤ s.txlen := by
  have hlen := s.txlen.isLt
  rw [BitVec.le_def]
  simp only [txRawFrame, emitFrame_txprog, BitVec.toNat_ofNat]
  omega

theorem txFirstFrame_txprog_le {s : State} (h : Config.SF_LIMIT ≤ s.txlen) :
    (txFirstFrame s).txprog ≤ s.txlen :=
  BitVec.le_trans (show 6#12 ≤ Config.SF_LIMIT by decide) h

/-- The progress after a Consecutive Frame as a number: it does not wrap (R125). -/
theorem txConsecutiveFrame_txprog_toNat {s : State} (h : s.txprog ≤ s.txlen) :
    (txConsecutiveFrame s).txprog.toNat =
      s.txprog.toNat + min 7 (s.txlen.toNat - s.txprog.toNat) := by
  rw [BitVec.le_def] at h
  have hlen := s.txlen.isLt
  simp only [txConsecutiveFrame, emitFrame_txprog, Config.CF_DATA, BitVec.toNat_add,
    BitVec.toNat_ofNat]
  omega

theorem txConsecutiveFrame_txprog_le {s : State} (h : s.txprog ≤ s.txlen) :
    (txConsecutiveFrame s).txprog ≤ s.txlen := by
  rw [BitVec.le_def, txConsecutiveFrame_txprog_toNat h]
  rw [BitVec.le_def] at h
  omega

theorem Inv.rxSingle {s : State} (h : Inv s) (n : BitVec 4) (d : FrameTail) :
    Inv (rxSingle n d s) := by
  unfold Machine.rxSingle
  split
  · exact h.answer _ _
  · refine (h.rxDeclare_append ?_).answer_state _ _ _
    simp only [List.length_take, BitVec.toNat_setWidth]
    omega

theorem Inv.rxFirst {s : State} (h : Inv s) (n : BitVec 4) (d : FrameTail) :
    Inv (rxFirst n d s) := by
  refine (h.rxDeclare_append ?_).answer_state _ _ _
  simp only [List.length_take]
  omega

theorem Inv.rxConsecutive {s : State} (h : Inv s) (d : FrameTail) : Inv (rxConsecutive d s) := by
  unfold Machine.rxConsecutive
  split
  · rename_i hlv
    exact (h.rxAppendBounded hlv).answer_state _ _ _
  · exact h.answer _ _

theorem Effect.inv {i : Instr} {s t : State} (he : Effect i s t) (h : Inv s) : Inv t := by
  cases he with
  | quiet st f => exact h.answer st f
  | load tidin a f p t hi ht hload => exact h.execLoad hload
  | raw => exact h.of_same rfl rfl rfl rfl rfl rfl (txRawFrame_txprog_le s)
  | single => exact h.of_same rfl rfl rfl rfl rfl rfl (BitVec.le_refl _)
  | first _ _ hl => exact h.of_same rfl rfl rfl rfl rfl rfl (txFirstFrame_txprog_le hl)
  | consecutive =>
    exact h.of_same rfl rfl rfl rfl rfl rfl (txConsecutiveFrame_txprog_le h.progress)
  | nothing => exact h.answer_state _ _ _
  | flowControl => exact h.answer_state _ _ _
  | rxSingle _ n d => exact h.rxSingle n d
  | rxFirst _ n d => exact h.rxFirst n d
  | rxConsecutive _ _ d => exact h.rxConsecutive d
  | rxFlowControl => exact h.answer_state _ _ _

theorem Inv.reset : Inv State.reset where
  txWf := empty_wf _
  rxWf := empty_wf _
  progress := BitVec.le_refl _
  bounded _ := BitVec.le_refl _
  unknown _ := ⟨rfl, rfl⟩
  txHeld i hi := absurd hi (Nat.not_lt_zero i)
  rxHeld i hi := absurd hi (Nat.not_lt_zero i)

theorem Inv.resetEvent (s : State) : Inv (resetEvent s) :=
  Inv.reset.of_same rfl rfl rfl rfl rfl rfl Inv.reset.progress

theorem Inv.step {s t : State} (h : Inv s) (hs : step s = .next t) : Inv t := by
  obtain ⟨-, rfl⟩ | ⟨rest, -, rfl⟩ | ⟨c, rest, i, -, -, hexec⟩ := step_cases hs
  · exact h
  · exact Inv.resetEvent _
  · exact (exec_effect hexec).inv (h.of_port rest)

/-- Settles O52: by `step_cases` a step is idle, a reset or a command, and each of a command's effects
keeps the invariants. -/
theorem stepKeepsTheStateInvariants : Obligations.StepKeepsTheStateInvariants :=
  fun _ _ h hs => h.step hs

/-! ### The phases: what each state says, and what the sequence counter says

`Phases` is a claim about the value of `STATE` and a claim about the sending side of the registers. A
command's effect names the state it enters, so only that state's clause is to be shown for it. -/

/-- A segmented transfer has sent all of its payload. -/
def SentWhole (s : State) : Prop := segmented s → s.txprog = s.txlen

/-- What `Phases` says of the counts in one value of `STATE` (R26, R36). -/
def PhaseOf (s : State) : XferState → Prop
  | .ready => s.txprog = 0 ∧ s.seq = 0 ∧ s.rxlv = false
  | .awaitingFlowControl => segmented s ∧ s.txprog = 6
  | .sending => segmented s → s.txprog ≠ 0
  | .awaitingReply => SentWhole s
  | .completed => SentWhole s
  | .sendFlowControl => SentWhole s ∧ s.rxlv = true ∧ s.rxcnt = 6 ∧ 6 ≤ s.rxlen
  | .error =>
    SentWhole s ∧ s.rxlv = true ∧ s.rxlen.toNat ≤ 15 ∧ s.rxcnt.toNat = min s.rxlen.toNat 7

/-- What `Phases` says of `SEQ` and the progress in every state (R30, R124, R125). -/
structure SeqFollows (s : State) : Prop where
  /-- An unsegmented transfer never counts. -/
  rest : ¬ segmented s → s.seq = 0
  /-- `SEQ` is the number of Consecutive Frames sent. -/
  count : segmented s → s.seq.toNat = s.txprog.toNat / 7 % 16
  /-- A segmented transfer in progress stands at a frame boundary. -/
  boundary : segmented s → s.txprog ≠ 0 → s.txprog < s.txlen → s.txprog.toNat % 7 = 6

theorem Phases.seqFollows {s : State} (h : Phases s) : SeqFollows s :=
  ⟨h.seqRest, h.seqCount, h.boundary⟩

theorem Phases.phaseOf {s : State} (h : Phases s) : PhaseOf s s.state := by
  cases hs : s.state with
  | ready => exact h.ready hs
  | sending => exact h.sending hs
  | awaitingFlowControl => exact h.awaitingFlowControl hs
  | awaitingReply => exact h.sent (.inl hs)
  | sendFlowControl => exact ⟨h.sent (.inr (.inl hs)), h.sendFlowControl hs⟩
  | completed => exact h.sent (.inr (.inr (.inl hs)))
  | error => exact ⟨h.sent (.inr (.inr (.inr hs))), h.error hs⟩

theorem phases_iff (s : State) : Phases s ↔ PhaseOf s s.state ∧ SeqFollows s := by
  refine ⟨fun h => ⟨h.phaseOf, h.seqFollows⟩, fun ⟨hp, hq⟩ => ?_⟩
  refine
    { ready := fun hs => by rw [hs] at hp; exact hp
      awaitingFlowControl := fun hs => by rw [hs] at hp; exact hp
      sending := fun hs => by rw [hs] at hp; exact hp
      sent := fun hs => ?_
      sendFlowControl := fun hs => by rw [hs] at hp; exact hp.2
      error := fun hs => by rw [hs] at hp; exact hp.2
      seqRest := hq.rest
      seqCount := hq.count
      boundary := hq.boundary }
  rcases hs with hs | hs | hs | hs <;> rw [hs] at hp
  · exact hp
  · exact hp.1
  · exact hp
  · exact hp.1

/-- Entering the post-send state needs a payload sent whole, whatever `AWAIT` is (R34). -/
theorem phaseOf_postSend {s t : State} (h : SentWhole t) : PhaseOf t (postSend s) := by
  unfold postSend
  split <;> exact h

/-- A segmented transfer that has sent nothing has counted nothing. -/
theorem SeqFollows.seq_eq_zero {s : State} (h : SeqFollows s) (hp : s.txprog = 0) : s.seq = 0 := by
  by_cases hseg : segmented s
  · apply BitVec.eq_of_toNat_eq
    rw [h.count hseg, hp]
    rfl
  · exact h.rest hseg

/-- A transfer that has sent nothing and counted nothing. -/
theorem SeqFollows.of_zero {s : State} (hp : s.txprog = 0) (hq : s.seq = 0) : SeqFollows s where
  rest _ := hq
  count _ := by rw [hp, hq]; rfl
  boundary _ h := absurd hp h

theorem SeqFollows.of_unsegmented {s : State} (hn : ¬ segmented s) (hq : s.seq = 0) :
    SeqFollows s where
  rest _ := hq
  count h := absurd h hn
  boundary h := absurd h hn

/-- The counter's claims look at the sending side alone. -/
theorem SeqFollows.of_same {s t : State} (h : SeqFollows s) (hf : t.fcen = s.fcen)
    (hl : t.txlen = s.txlen) (hp : t.txprog = s.txprog) (hq : t.seq = s.seq) : SeqFollows t := by
  have hseg : segmented t ↔ segmented s := by rw [segmented, segmented, hf, hl]
  refine ⟨?_, ?_, ?_⟩
  · rw [hseg, hq]; exact h.rest
  · rw [hseg, hq, hp]; exact h.count
  · rw [hseg, hp, hl]; exact h.boundary

theorem not_segmented_of_fcen {s : State} (h : s.fcen = false) : ¬ segmented s :=
  fun hseg => absurd hseg.1 (by simp [h])

theorem not_segmented_of_short {s : State} (h : s.txlen < Config.SF_LIMIT) : ¬ segmented s :=
  fun hseg => BitVec.not_lt.2 hseg.2 h

/-! ### The phases after the branches of PRODUCE_NEXT -/

/-- An unsegmented transfer is in every post-send phase, whatever its progress. -/
theorem phases_postSend_of_unsegmented {s t : State} (hs : t.state = postSend s)
    (hn : ¬ segmented t) (hq : t.seq = 0) : Phases t :=
  (phases_iff t).2 ⟨hs ▸ phaseOf_postSend fun h => absurd h hn, .of_unsegmented hn hq⟩

theorem Phases.txRawFrame {s : State} (h : Phases s) (hf : s.fcen = false) :
    Phases (txRawFrame s) :=
  phases_postSend_of_unsegmented rfl (not_segmented_of_fcen hf)
    (h.seqRest (not_segmented_of_fcen hf))

theorem Phases.txSingleFrame {s : State} (h : Phases s) (hl : s.txlen < Config.SF_LIMIT) :
    Phases (txSingleFrame s) :=
  phases_postSend_of_unsegmented rfl (not_segmented_of_short (s := Machine.txSingleFrame s) hl)
    (h.seqRest (not_segmented_of_short hl))

theorem Phases.txFirstFrame {s : State} (h : Phases s) (hseg : segmented s) (hp : s.txprog = 0) :
    Phases (txFirstFrame s) :=
  (phases_iff _).2 ⟨⟨hseg, rfl⟩,
    { rest := fun hn => absurd hseg hn
      count := fun _ => by
        have hq : (Machine.txFirstFrame s).seq = 0 := h.seqFollows.seq_eq_zero hp
        have hprog : (Machine.txFirstFrame s).txprog.toNat = 6 := rfl
        rw [hq, hprog]
        rfl
      boundary := fun _ _ _ => rfl }⟩

/-- Behind PRODUCE_NEXT's gate a transfer with progress is in `SENDING` (R121). -/
theorem Phases.state_eq_sending {s : State} (h : Phases s) (hg : produceGate s = true)
    (hp : s.txprog ≠ 0) : s.state = .sending := by
  simp only [produceGate, Bool.or_eq_true, beq_iff_eq] at hg
  exact hg.resolve_left fun hr => hp (h.ready hr).1

/-- A Consecutive Frame counts one more and either ends the payload or moves a full 7 bytes on. -/
theorem SeqFollows.txConsecutiveFrame {s : State} (h : SeqFollows s) (hseg : segmented s)
    (hp : s.txprog ≠ 0) (hlt : s.txprog < s.txlen) : SeqFollows (txConsecutiveFrame s) := by
  have hcount := h.count hseg
  have hmod := h.boundary hseg hp hlt
  have hprog := txConsecutiveFrame_txprog_toNat (BitVec.le_of_lt hlt)
  rw [BitVec.lt_def] at hlt
  refine ⟨fun hn => absurd hseg hn, fun _ => ?_, fun _ _ hlt' => ?_⟩
  · have hseq : (Machine.txConsecutiveFrame s).seq.toNat = (s.seq.toNat + 1) % 16 := by
      simp [Machine.txConsecutiveFrame, BitVec.toNat_add]
    rw [hprog, hseq]
    omega
  · have hlen : (Machine.txConsecutiveFrame s).txlen = s.txlen := rfl
    rw [BitVec.lt_def, hlen] at hlt'
    omega

theorem Phases.txConsecutiveFrame {s : State} (h : Phases s) (hg : produceGate s = true)
    (hseg : segmented s) (hp : s.txprog ≠ 0) (hlt : s.txprog < s.txlen) :
    Phases (txConsecutiveFrame s) := by
  refine (phases_iff _).2 ⟨?_, h.seqFollows.txConsecutiveFrame hseg hp hlt⟩
  have hprog := txConsecutiveFrame_txprog_toNat (BitVec.le_of_lt hlt)
  have hstate : (Machine.txConsecutiveFrame s).state =
      if (Machine.txConsecutiveFrame s).txprog = s.txlen then postSend s else s.state := rfl
  rw [hstate]
  split
  · rename_i hend
    exact phaseOf_postSend fun _ => hend
  · rw [h.state_eq_sending hg hp]
    intro _ hzero
    have hzero : (Machine.txConsecutiveFrame s).txprog.toNat = 0 := by rw [hzero]; rfl
    exact hp (BitVec.eq_of_toNat_eq (Nat.eq_zero_of_add_eq_zero_right (hprog ▸ hzero)))

theorem Phases.txNothing {s : State} (h : Phases s) (hp : s.txprog = s.txlen) :
    Phases (txNothing s) :=
  (phases_iff _).2 ⟨phaseOf_postSend fun _ => hp, h.seqFollows.of_same rfl rfl rfl rfl⟩

theorem Phases.txFlowControl {s : State} (h : Phases s) (hs : s.state = .sendFlowControl) :
    Phases (txFlowControl s) :=
  (phases_iff _).2 ⟨h.sent (.inr (.inl hs)), h.seqFollows.of_same rfl rfl rfl rfl⟩

/-! ### The phases after the received kinds -/

/-- Everything an unsegmented frame changes when it is no response-pending (R146, R147). -/
theorem rxSingle_eq {n : BitVec 4} {d : FrameTail} {s : State} (h : responsePending d s = false) :
    ∃ m : Memory, rxSingle n d s = { s with
      rxbuf := m
      rxcnt := BitVec.ofNat 12 (min n.toNat 7)
      rxlen := n.setWidth 12
      rxlv := true
      state := if d.d1 = s.params.negSid then .error else .completed
      result := some ⟨.ok, .none⟩ } := by
  refine ⟨(rxSingle n d s).rxbuf, ?_⟩
  simp only [rxSingle, h, Bool.false_eq_true, ↓reduceIte]
  rw [rxDeclare_append_eq]
  simp [answer]

/-- Everything a First Frame changes (R148 to R150). -/
theorem rxFirst_eq (n : BitVec 4) (d : FrameTail) (s : State) :
    ∃ m : Memory, rxFirst n d s = { s with
      rxbuf := m
      rxcnt := BitVec.ofNat 12 (min 6 (firstFrameLength n d.d1).toNat)
      rxlen := firstFrameLength n d.d1
      rxlv := true
      state := if firstFrameLength n d.d1 < 6 then .completed else .sendFlowControl
      result := some ⟨.ok, .none⟩ } := by
  refine ⟨(rxFirst n d s).rxbuf, ?_⟩
  simp only [rxFirst]
  rw [rxDeclare_append_eq]
  simp [answer]

/-- Everything a Consecutive Frame changes where a length is declared: it appends up to 7 of the
missing bytes (R152). -/
theorem rxConsecutive_eq {d : FrameTail} {s : State} (h : s.rxlv = true) :
    ∃ (m : Memory) (n : BitVec 12),
      n = s.rxcnt + BitVec.ofNat 12 (min (s.rxlen.toNat - s.rxcnt.toNat) 7) ∧
      rxConsecutive d s = { s with
        rxbuf := m
        rxcnt := n
        state := if n = s.rxlen then .completed else s.state
        result := some ⟨.ok, .none⟩ } := by
  refine ⟨(rxConsecutive d s).rxbuf, _, rfl, ?_⟩
  rw [rxConsecutive, if_pos h, rxAppendBounded_eq, rxAppendAll_eq]
  simp [answer]


theorem Phases.answer {s : State} (h : Phases s) (st : Status) (f : Fields) :
    Phases (answer st f s) :=
  (phases_iff _).2 ⟨h.phaseOf, h.seqFollows.of_same rfl rfl rfl rfl⟩

theorem Phases.rxSingle {s : State} (h : Phases s) (hs : s.state = .awaitingReply) (n : BitVec 4)
    (d : FrameTail) : Phases (rxSingle n d s) := by
  by_cases hpend : responsePending d s = true
  · rw [Machine.rxSingle, if_pos hpend]
    exact h.answer _ _
  obtain ⟨m, hm⟩ := rxSingle_eq (n := n) (Bool.eq_false_of_not_eq_true hpend)
  rw [hm]
  refine (phases_iff _).2 ⟨?_, h.seqFollows.of_same rfl rfl rfl rfl⟩
  have hsent : SentWhole s := h.sent (.inl hs)
  simp only
  split
  · have hn := n.isLt
    refine ⟨hsent, rfl, ?_, ?_⟩ <;> simp only [BitVec.toNat_setWidth, BitVec.toNat_ofNat] <;> omega
  · exact hsent

theorem Phases.rxFirst {s : State} (h : Phases s) (hs : s.state = .awaitingReply) (n : BitVec 4)
    (d : FrameTail) : Phases (rxFirst n d s) := by
  obtain ⟨m, hm⟩ := rxFirst_eq n d s
  rw [hm]
  refine (phases_iff _).2 ⟨?_, h.seqFollows.of_same rfl rfl rfl rfl⟩
  have hsent : SentWhole s := h.sent (.inl hs)
  simp only
  split
  · exact hsent
  · rename_i hlen
    have hlen : 6 ≤ firstFrameLength n d.d1 := BitVec.not_lt.1 hlen
    have hmin : min 6 (firstFrameLength n d.d1).toNat = 6 := Nat.min_eq_left (BitVec.le_def.1 hlen)
    exact ⟨hsent, rfl, by rw [hmin]; rfl, hlen⟩

theorem Phases.rxConsecutive {s : State} (h : Phases s) (hs : s.state = .awaitingReply)
    (d : FrameTail) : Phases (rxConsecutive d s) := by
  by_cases hlv : s.rxlv = true
  · obtain ⟨m, n, -, hm⟩ := rxConsecutive_eq (d := d) hlv
    rw [hm]
    refine (phases_iff _).2 ⟨?_, h.seqFollows.of_same rfl rfl rfl rfl⟩
    have hsent : SentWhole s := h.sent (.inl hs)
    simp only [hs]
    split <;> exact hsent
  · rw [Machine.rxConsecutive, if_neg hlv]
    exact h.answer _ _

/-- A flow control resumes a transfer that has sent its First Frame, or its whole payload. -/
theorem Phases.rxFlowControl {s : State} (h : Phases s)
    (hs : s.state = .awaitingReply ∨ s.state = .awaitingFlowControl) : Phases (rxFlowControl s) := by
  refine (phases_iff _).2 ⟨fun hseg hzero => ?_, h.seqFollows.of_same rfl rfl rfl rfl⟩
  have hzero : s.txprog = 0 := hzero
  rcases hs with hs | hs
  · have hlen := hseg.2
    rw [show (Machine.rxFlowControl s).txlen = s.txprog from (h.sent (.inl hs) hseg).symm,
      hzero] at hlen
    exact absurd hlen (by decide)
  · rw [(h.awaitingFlowControl hs).2] at hzero
    exact absurd hzero (by decide)

/-! ### The phases through every command and every step -/

theorem Phases.of_ready {s : State} (hs : s.state = .ready) (hp : s.txprog = 0) (hq : s.seq = 0)
    (hlv : s.rxlv = false) : Phases s :=
  (phases_iff s).2 ⟨hs ▸ ⟨hp, hq, hlv⟩, .of_zero hp hq⟩

theorem Phases.execLoad {tidin : Word} {a f : Bool} {p : List Byte} {s t : State} (h : Phases s)
    (hload : execLoad tidin a f p s = .next t) : Phases t := by
  unfold Machine.execLoad at hload
  split at hload <;> cases hload
  · exact h.answer _ _
  · exact .of_ready rfl rfl rfl rfl

theorem Effect.phases {i : Instr} {s t : State} (he : Effect i s t) (hinv : Inv s)
    (h : Phases s) : Phases t := by
  cases he with
  | quiet st f => exact h.answer st f
  | load tidin a f p t hi ht hload => exact h.execLoad hload
  | raw _ hf => exact h.txRawFrame hf
  | single _ _ hl => exact h.txSingleFrame hl
  | first _ hf hl hp => exact h.txFirstFrame ⟨hf, hl⟩ hp
  | consecutive hg hf hl hp hlt => exact h.txConsecutiveFrame hg ⟨hf, hl⟩ hp hlt
  | nothing _ _ _ _ hge => exact h.txNothing (BitVec.le_antisymm hinv.progress hge)
  | flowControl hs => exact h.txFlowControl hs
  | rxSingle _ n d _ _ hs => exact h.rxSingle hs n d
  | rxFirst _ n d _ _ hs => exact h.rxFirst hs n d
  | rxConsecutive _ _ d _ _ hs => exact h.rxConsecutive hs d
  | rxFlowControl _ _ _ _ _ hs => exact h.rxFlowControl hs

theorem Phases.step {s t : State} (h : Phases s) (hinv : Inv s) (hs : step s = .next t) :
    Phases t := by
  obtain ⟨-, rfl⟩ | ⟨rest, -, rfl⟩ | ⟨c, rest, i, -, -, hexec⟩ := step_cases hs
  · exact h
  · exact .of_ready rfl rfl rfl rfl
  · exact (exec_effect hexec).phases (hinv.of_port rest) (h.of_port rest)

/-- Settles O53: every effect enters a state whose clause it meets, and only the branches of
PRODUCE_NEXT move `SEQ` and the progress. -/
theorem stepKeepsThePhasesAndTheCounter : Obligations.StepKeepsThePhasesAndTheCounter :=
  fun _ _ hinv h hs => h.step hinv hs

/-! ### Reset -/

/-- Settles O54 (R37): nothing is loaded, sent or received. -/
theorem resetMeetsTheInvariants : Obligations.ResetMeetsTheInvariants :=
  ⟨Inv.reset, Phases.of_ready rfl rfl rfl rfl⟩

/-- Settles O46 (R37, R56): the buffers list no byte. -/
theorem resetLeavesTheStatedRegisters : Obligations.ResetLeavesTheStatedRegisters :=
  ⟨rfl, rfl, rfl, rfl, rfl, rfl, rfl, rfl, rfl, rfl, fun _ => rfl, fun _ => rfl⟩

/-! ### The identifier rows -/

/-- Settles O6: each row answers with its own operands, whatever the pad bits (R38, R101, R102). -/
theorem identifierRowsAnswerTheirVariant : Obligations.IdentifierRowsAnswerTheirVariant :=
  ⟨fun _ _ => rfl, fun _ _ _ _ _ => rfl⟩

/-! ### The terminal states (R35) -/

theorem produceGate_of_terminal {s : State} (hs : s.state = .completed ∨ s.state = .error) :
    produceGate s = false := by
  rcases hs with hs | hs <;> rw [produceGate, hs] <;> rfl

/-- In a terminal state every effect but a LOAD's is shut out by its gate (R121, R130, R143). -/
theorem Effect.of_terminal {i : Instr} {s t : State} (he : Effect i s t)
    (hs : s.state = .completed ∨ s.state = .error) :
    t = { s with result := t.result } ∨ ∃ tidin a f p, i = .load tidin a f p := by
  have hgate : produceGate s ≠ true := by simp [produceGate_of_terminal hs]
  have hreply : s.state ≠ .awaitingReply := by rcases hs with hs | hs <;> simp [hs]
  have hwait : s.state ≠ .awaitingFlowControl := by rcases hs with hs | hs <;> simp [hs]
  have hdue : s.state ≠ .sendFlowControl := by rcases hs with hs | hs <;> simp [hs]
  cases he with
  | quiet st f => exact .inl rfl
  | load tidin a f p t hi => exact .inr ⟨tidin, a, f, p, hi⟩
  | raw hg => exact absurd hg hgate
  | single hg => exact absurd hg hgate
  | first hg => exact absurd hg hgate
  | consecutive hg => exact absurd hg hgate
  | nothing hg => exact absurd hg hgate
  | flowControl h => exact absurd h hdue
  | rxSingle _ _ _ _ _ h => exact absurd h hreply
  | rxFirst _ _ _ _ _ h => exact absurd h hreply
  | rxConsecutive _ _ _ _ _ h => exact absurd h hreply
  | rxFlowControl _ _ _ _ _ h => exact absurd h (not_or.2 ⟨hreply, hwait⟩)

/-- Settles O50 (R35, R176, R194): by `step_cases`, and `Effect.of_terminal` for a command. -/
theorem onlyLoadOrResetLeavesATerminalState :
    Obligations.OnlyLoadOrResetLeavesATerminalState := by
  intro s t hs h
  obtain ⟨-, rfl⟩ | ⟨rest, hport, -⟩ | ⟨c, rest, i, hport, hdec, hexec⟩ := step_cases h
  · exact .inl rfl
  · exact .inr (.inl ⟨rest, hport⟩)
  · obtain ht | ⟨tidin, a, f, p, rfl⟩ := (exec_effect hexec).of_terminal hs
    · refine .inl ?_
      rw [ht]
    · exact .inr (.inr ⟨c, rest, tidin, a, f, p, hport, hdec⟩)

/-! ### The transition map (R36)

The map speaks of numbers, the commands of registers: the two equations say the map's entries for
PRODUCE_NEXT and CONSUME in the commands' own conditions. -/

theorem transitionMap_produceNext (s : State) :
    transitionMap .produceNext s =
      if produceGate s = true then
        if s.fcen = false ∨ s.txlen < Config.SF_LIMIT then postSend s
        else if s.txprog = 0 then .awaitingFlowControl
        else if s.txprog.toNat + 7 < s.txlen.toNat then s.state
        else postSend s
      else s.state := by
  have hzero : s.txprog = 0 ↔ s.txprog.toNat = 0 := BitVec.toNat_inj.symm
  simp only [transitionMap, produceGate, Bool.or_eq_true, beq_iff_eq, BitVec.lt_def,
    sfLimit_toNat, hzero, postSend]

theorem transitionMap_consume (rxid : Word) (d : Frame) (s : State) :
    transitionMap (.consume rxid d) s =
      if idMatches rxid s = true then
        if s.state = .awaitingFlowControl ∧ d.pci = 0x3 then .sending
        else if s.state = .awaitingReply then
          if d.pci = 0x0 then
            if d.tail.d1 = s.params.negSid then
              if nrcByte s.params.nrcIndex d.tail = s.params.nrcPending then .awaitingReply
              else .error
            else .completed
          else if d.pci = 0x1 then
            if firstFrameLength d.nibble d.tail.d1 < 6 then .completed else .sendFlowControl
          else if d.pci = 0x2 then
            if s.rxlv = true ∧ s.rxcnt.toNat ≤ s.rxlen.toNat ∧
                s.rxlen.toNat ≤ s.rxcnt.toNat + 7 then .completed
            else .awaitingReply
          else if d.pci = 0x3 then .sending
          else .awaitingReply
        else s.state
      else s.state := by
  have h0 : d.pci = 0x0 ↔ d.d0.toNat / 16 = 0 := pci_eq_iff d (by decide)
  have h1 : d.pci = 0x1 ↔ d.d0.toNat / 16 = 1 := pci_eq_iff d (by decide)
  have h2 : d.pci = 0x2 ↔ d.d0.toNat / 16 = 2 := pci_eq_iff d (by decide)
  have h3 : d.pci = 0x3 ↔ d.d0.toNat / 16 = 3 := pci_eq_iff d (by decide)
  have hlen : firstFrameLength d.nibble d.tail.d1 < 6 ↔
      d.d0.toNat % 16 * 256 + d.tail.d1.toNat < 6 := by
    rw [BitVec.lt_def, firstFrameLength_toNat, Frame.nibble, BitVec.extractLsb'_toNat,
      Nat.shiftRight_zero]
    rfl
  simp only [transitionMap, idMatches_iff, h0, h1, h2, h3, hlen]

/-- A Consecutive Frame ends the payload exactly where no more than 7 bytes were left (R125). -/
theorem txConsecutiveFrame_state {s : State} (hlt : s.txprog < s.txlen) :
    (txConsecutiveFrame s).state =
      if s.txprog.toNat + 7 < s.txlen.toNat then s.state else postSend s := by
  have hprog := txConsecutiveFrame_txprog_toNat (BitVec.le_of_lt hlt)
  have hend : (txConsecutiveFrame s).txprog = s.txlen ↔
      ¬ s.txprog.toNat + 7 < s.txlen.toNat := by
    rw [BitVec.lt_def] at hlt
    rw [← BitVec.toNat_inj, hprog]
    omega
  have hstate : (txConsecutiveFrame s).state =
      if (txConsecutiveFrame s).txprog = s.txlen then postSend s else s.state := rfl
  rw [hstate, if_congr hend rfl rfl, ite_not]

theorem execProduceNext_state {s t : State} (h : execProduceNext s = .next t) :
    t.state = transitionMap .produceNext s := by
  rw [transitionMap_produceNext]
  unfold execProduceNext at h
  split_ifs at h with hg hf hl hp hlt <;> cases h
  · rw [if_neg (by simpa using hg), answer_state]
  all_goals rw [if_pos (by simpa using hg)]
  · rw [if_pos (.inl hf)]
    rfl
  · rw [if_pos (.inr hl)]
    rfl
  all_goals rw [if_neg (not_or.2 ⟨hf, hl⟩)]
  · rw [if_pos hp]
    rfl
  all_goals rw [if_neg hp]
  · exact txConsecutiveFrame_state hlt
  · rw [BitVec.lt_def] at hlt
    rw [if_neg (by omega)]
    rfl

theorem rxSingle_state (n : BitVec 4) (d : FrameTail) (s : State) :
    (rxSingle n d s).state =
      if d.d1 = s.params.negSid then
        if nrcByte s.params.nrcIndex d = s.params.nrcPending then s.state else .error
      else .completed := by
  by_cases hpend : responsePending d s = true
  · have hpat := hpend
    simp only [responsePending, Bool.and_eq_true, beq_iff_eq] at hpat
    rw [rxSingle, if_pos hpend, if_pos hpat.1, if_pos hpat.2, answer_state]
  · have hpat := hpend
    simp only [responsePending, Bool.and_eq_true, beq_iff_eq, not_and] at hpat
    obtain ⟨m, hm⟩ := rxSingle_eq (n := n) (Bool.eq_false_of_not_eq_true hpend)
    rw [hm]
    split
    · rename_i hneg
      rw [if_neg (hpat hneg)]
    · rfl

theorem rxConsecutive_state (d : FrameTail) (s : State) :
    (rxConsecutive d s).state =
      if s.rxlv = true ∧ s.rxcnt.toNat ≤ s.rxlen.toNat ∧ s.rxlen.toNat ≤ s.rxcnt.toNat + 7 then
        .completed
      else s.state := by
  by_cases hlv : s.rxlv = true
  · obtain ⟨m, n, hn, hm⟩ := rxConsecutive_eq (d := d) hlv
    have hend : n = s.rxlen ↔ s.rxlv = true ∧ s.rxcnt.toNat ≤ s.rxlen.toNat ∧
        s.rxlen.toNat ≤ s.rxcnt.toNat + 7 := by
      have hcnt := s.rxcnt.isLt
      have hlen := s.rxlen.isLt
      rw [hn, ← BitVec.toNat_inj, BitVec.toNat_add, BitVec.toNat_ofNat, and_iff_right hlv]
      omega
    rw [hm]
    exact if_congr hend rfl rfl
  · rw [if_neg fun h => hlv h.1, rxConsecutive, if_neg hlv, answer_state]

theorem execConsume_state {rxid : Word} {d : Frame} {s t : State}
    (h : execConsume rxid d s = .next t) : t.state = transitionMap (.consume rxid d) s := by
  rw [transitionMap_consume]
  unfold execConsume at h
  split_ifs at h with hm ha hs h0 h1 h2 h3 <;> cases h
  · rw [if_neg (by simpa using hm)]
    rfl
  all_goals rw [if_pos (by simpa using hm)]
  · rw [if_pos ha]
    rfl
  all_goals rw [if_neg ha]
  · rw [if_neg hs]
    rfl
  all_goals
    have hs : s.state = .awaitingReply := Decidable.not_not.1 hs
    rw [if_pos hs]
  · rw [if_pos h0, rxSingle_state, hs]
  all_goals rw [if_neg h0]
  · rw [if_pos h1]
    rfl
  all_goals rw [if_neg h1]
  · rw [if_pos h2, rxConsecutive_state, hs]
  all_goals rw [if_neg h2]
  · rw [if_pos h3]
    rfl
  · rw [if_neg h3]
    exact hs

theorem execLoad_state {tidin : Word} {a f : Bool} {p : List Byte} {s t : State}
    (h : execLoad tidin a f p s = .next t) : t.state = transitionMap (.load tidin a f p) s := by
  unfold execLoad at h
  simp only [transitionMap]
  split at h <;> rename_i hl <;> rw [BitVec.le_def, stdLimit_toNat] at hl <;> cases h
  · rw [if_neg (by omega), answer_state]
  · rw [if_pos (by omega), answer_state]

theorem execProduceFc_state {s t : State} (h : execProduceFc s = .next t) :
    t.state = transitionMap .produceFc s := by
  unfold execProduceFc at h
  simp only [transitionMap]
  split at h <;> rename_i hs <;> cases h
  · rw [if_pos hs]
    rfl
  · rw [if_neg hs, answer_state]

theorem execReadRx_state {j : BitVec 12} {s t : State} (h : execReadRx j s = .next t) :
    t.state = s.state := by
  unfold execReadRx at h
  split at h <;> cases h <;> rfl

/-- The map gives the state after every command of the interface; the rows the state selects have no
transaction. -/
theorem exec_state {c : Command} {i : Instr} {s t : State} (hd : decode (.cmd c) = .ok i)
    (h : exec i s = .next t) : t.state = transitionMap i s := by
  obtain rfl | ⟨raw, rfl⟩ | ⟨p, a, d, rfl⟩ | ⟨a, rfl⟩ | ⟨tidin, a, f, p, rfl, -⟩ | rfl | rfl |
    ⟨r, d, rfl⟩ | rfl | ⟨j, rfl⟩ := decodeCommand_isCommand hd
  · cases h; rfl
  · cases h; rfl
  · cases h; rfl
  · cases h; rfl
  · exact execLoad_state h
  · exact execProduceNext_state h
  · exact execProduceFc_state h
  · exact execConsume_state h
  · cases h; rfl
  · exact execReadRx_state h

theorem step_of_port_reset {s : State} {rest : List Input} (h : s.port = .reset :: rest) :
    step s = .next (resetEvent { s with port := rest }) := by
  simp [step, takeInput, h]

theorem step_of_port_command {s : State} {c : Command} {rest : List Input} {i : Instr}
    (h : s.port = .command c :: rest) (hd : decode (.cmd c) = .ok i) :
    step s = exec i { s with port := rest } := by
  simp [step, takeInput, h, hd]

/-- Settles O49 (R36, R210): the head of the port says which of the three cases a step is. -/
theorem transitionsAreTheMaps : Obligations.TransitionsAreTheMaps := by
  intro s t h
  refine ⟨fun hport => ?_, fun rest hport => ?_, fun c rest i hport hdec => ?_⟩
  · rw [step_of_port_nil hport] at h
    cases h
    rfl
  · rw [step_of_port_reset hport] at h
    cases h
    rfl
  · rw [step_of_port_command hport hdec] at h
    rw [exec_state hdec h, transitionMap_port]

end Sys2Proof.Machine
end

section
/-! ## Memory: the bytes above the counts, and the reads (20_memory.md R52, R53, R56, R60)

Two states that agree below the counts are one state with two pairs of buffers, so every condition a
command tests on the registers is the same in both. What is left to show is that a command reads no
byte above a count, and that it writes each byte a raised count newly covers. -/

namespace Sys2Proof.Machine

/-! ### READ_RX on either side of `RXCNT` (R174) -/

theorem execReadRx_of_le {j : BitVec 12} {s : State} (h : s.rxcnt ≤ j) :
    execReadRx j s = .next (answer .badArg .none s) :=
  if_pos h

theorem execReadRx_of_lt {j : BitVec 12} {s : State} (h : j < s.rxcnt) :
    execReadRx j s = .next (answer .ok (.byte (rxByte s j.toNat)) s) :=
  if_neg (BitVec.not_le.2 h)

/-! ### The relation: two pairs of buffers behind the same registers -/

theorem SameBelowCounts.exists_buffers {s t : State} (h : SameBelowCounts s t) :
    ∃ tx rx : Memory, t = { s with txbuf := tx, rxbuf := rx } :=
  ⟨t.txbuf, t.rxbuf, h.registers.symm⟩

theorem SameBelowCounts.rxcnt_eq {s t : State} (h : SameBelowCounts s t) : t.rxcnt = s.rxcnt :=
  (congrArg State.rxcnt h.registers).symm

theorem SameBelowCounts.rxlen_eq {s t : State} (h : SameBelowCounts s t) : t.rxlen = s.rxlen :=
  (congrArg State.rxlen h.registers).symm

theorem SameBelowCounts.rxlv_eq {s t : State} (h : SameBelowCounts s t) : t.rxlv = s.rxlv :=
  (congrArg State.rxlv h.registers).symm

theorem SameBelowCounts.state_eq {s t : State} (h : SameBelowCounts s t) : t.state = s.state :=
  (congrArg State.state h.registers).symm

theorem SameBelowCounts.port_eq {s t : State} (h : SameBelowCounts s t) : t.port = s.port :=
  (congrArg State.port h.registers).symm

theorem SameBelowCounts.refl (s : State) : SameBelowCounts s s :=
  ⟨rfl, fun _ _ => rfl, fun _ _ => rfl⟩

theorem SameBelowCounts.answer {s t : State} (h : SameBelowCounts s t) (st : Status) (f : Fields) :
    SameBelowCounts (answer st f s) (answer st f t) := by
  obtain ⟨tx, rx, rfl⟩ := h.exists_buffers
  exact ⟨rfl, h.payload, h.reassembled⟩

theorem SameBelowCounts.of_state {s t : State} (h : SameBelowCounts s t) {x y : XferState}
    (hxy : x = y) : SameBelowCounts { s with state := x } { t with state := y } := by
  obtain ⟨tx, rx, rfl⟩ := h.exists_buffers
  subst hxy
  exact ⟨rfl, h.payload, h.reassembled⟩

theorem SameBelowCounts.of_port {s t : State} (h : SameBelowCounts s t) (p : List Input) :
    SameBelowCounts { s with port := p } { t with port := p } := by
  obtain ⟨tx, rx, rfl⟩ := h.exists_buffers
  exact ⟨rfl, h.payload, h.reassembled⟩

/-- A reset keeps neither buffer (R210). -/
theorem SameBelowCounts.resetEvent {s t : State} (h : SameBelowCounts s t) :
    SameBelowCounts (resetEvent s) (resetEvent t) := by
  obtain ⟨tx, rx, rfl⟩ := h.exists_buffers
  exact .refl _

/-! ### The send side reads payload bytes only -/

theorem SameBelowCounts.txSlice_eq {s t : State} (h : SameBelowCounts s t) {a k : Nat}
    (hk : a + k ≤ s.txlen.toNat) : txSlice t a k = txSlice s a k := by
  refine List.map_congr_left fun i hi => (h.payload i ?_).symm
  have hi := (List.mem_range'_1.1 hi).2
  omega

theorem SameBelowCounts.txRawFrame {s t : State} (h : SameBelowCounts s t) :
    SameBelowCounts (txRawFrame s) (txRawFrame t) := by
  obtain ⟨tx, rx, rfl⟩ := h.exists_buffers
  have hslice := h.txSlice_eq (a := 0) (k := min s.txlen.toNat Config.FRAME_BYTES) (by omega)
  refine ⟨?_, h.payload, h.reassembled⟩
  simp only [Machine.txRawFrame, hslice]
  rfl

theorem SameBelowCounts.txSingleFrame {s t : State} (h : SameBelowCounts s t) :
    SameBelowCounts (txSingleFrame s) (txSingleFrame t) := by
  obtain ⟨tx, rx, rfl⟩ := h.exists_buffers
  have hslice := h.txSlice_eq (a := 0) (k := s.txlen.toNat) (by omega)
  refine ⟨?_, h.payload, h.reassembled⟩
  simp only [Machine.txSingleFrame, hslice]
  rfl

theorem SameBelowCounts.txFirstFrame {s t : State} (h : SameBelowCounts s t)
    (hlen : Config.SF_LIMIT ≤ s.txlen) : SameBelowCounts (txFirstFrame s) (txFirstFrame t) := by
  obtain ⟨tx, rx, rfl⟩ := h.exists_buffers
  rw [BitVec.le_def, sfLimit_toNat] at hlen
  have hslice := h.txSlice_eq (a := 0) (k := Config.FF_DATA) (by simp only [Config.FF_DATA]; omega)
  refine ⟨?_, h.payload, h.reassembled⟩
  simp only [Machine.txFirstFrame, hslice]
  rfl

theorem SameBelowCounts.txConsecutiveFrame {s t : State} (h : SameBelowCounts s t)
    (hlt : s.txprog < s.txlen) :
    SameBelowCounts (txConsecutiveFrame s) (txConsecutiveFrame t) := by
  obtain ⟨tx, rx, rfl⟩ := h.exists_buffers
  rw [BitVec.lt_def] at hlt
  have hslice := h.txSlice_eq (a := s.txprog.toNat)
    (k := min Config.CF_DATA (s.txlen.toNat - s.txprog.toNat)) (by omega)
  refine ⟨?_, h.payload, h.reassembled⟩
  simp only [Machine.txConsecutiveFrame, hslice]
  rfl

theorem SameBelowCounts.txNothing {s t : State} (h : SameBelowCounts s t) :
    SameBelowCounts (txNothing s) (txNothing t) := by
  obtain ⟨tx, rx, rfl⟩ := h.exists_buffers
  exact (h.of_state rfl).answer _ _

theorem SameBelowCounts.txFlowControl {s t : State} (h : SameBelowCounts s t) :
    SameBelowCounts (txFlowControl s) (txFlowControl t) := by
  obtain ⟨tx, rx, rfl⟩ := h.exists_buffers
  exact (h.of_state rfl).answer _ _

/-! ### The receive side writes every byte it counts -/

/-- A declared length starts an empty reply, so no byte is below the count (R146, R149). -/
theorem SameBelowCounts.rxDeclare {s t : State} (h : SameBelowCounts s t) (n : BitVec 12) :
    SameBelowCounts (rxDeclare n s) (rxDeclare n t) := by
  obtain ⟨tx, rx, rfl⟩ := h.exists_buffers
  exact ⟨rfl, h.payload, fun i hi => absurd hi (Nat.not_lt_zero i)⟩

/-- The byte the count newly covers is the appended one (R54); a count that wraps covers none. -/
theorem SameBelowCounts.rxAppend {s t : State} (h : SameBelowCounts s t) (v : Byte) :
    SameBelowCounts (rxAppend v s) (rxAppend v t) := by
  obtain ⟨tx, rx, rfl⟩ := h.exists_buffers
  refine ⟨rfl, h.payload, fun i hi => ?_⟩
  simp only [rxByte, rxAppend_rxbuf, read_write]
  split
  · rfl
  · rename_i hne
    refine h.reassembled i ?_
    have hone : (1 : BitVec 12).toNat = 1 := rfl
    rw [rxAppend_rxcnt, BitVec.toNat_add, hone] at hi
    omega

theorem SameBelowCounts.rxAppendAll {s t : State} (h : SameBelowCounts s t) (l : List Byte) :
    SameBelowCounts (rxAppendAll l s) (rxAppendAll l t) := by
  induction l generalizing s t with
  | nil => exact h
  | cons v l ih => exact ih (h.rxAppend v)

theorem SameBelowCounts.rxAppendBounded {s t : State} (h : SameBelowCounts s t) (l : List Byte) :
    SameBelowCounts (rxAppendBounded l s) (rxAppendBounded l t) := by
  obtain ⟨tx, rx, rfl⟩ := h.exists_buffers
  rw [rxAppendBounded_eq, rxAppendBounded_eq]
  exact h.rxAppendAll _

theorem SameBelowCounts.rxSingle {s t : State} (h : SameBelowCounts s t) (n : BitVec 4)
    (d : FrameTail) : SameBelowCounts (rxSingle n d s) (rxSingle n d t) := by
  obtain ⟨tx, rx, rfl⟩ := h.exists_buffers
  have hpend : responsePending d { s with txbuf := tx, rxbuf := rx } = responsePending d s := rfl
  simp only [Machine.rxSingle, hpend]
  split
  · exact h.answer _ _
  · exact (((h.rxDeclare _).rxAppendAll _).of_state rfl).answer _ _

theorem SameBelowCounts.rxFirst {s t : State} (h : SameBelowCounts s t) (n : BitVec 4)
    (d : FrameTail) : SameBelowCounts (rxFirst n d s) (rxFirst n d t) :=
  (((h.rxDeclare _).rxAppendAll _).of_state rfl).answer _ _

/-- The end of the reply is told from the counts. -/
theorem SameBelowCounts.rxConsecutive {s t : State} (h : SameBelowCounts s t) (d : FrameTail) :
    SameBelowCounts (rxConsecutive d s) (rxConsecutive d t) := by
  have happend := h.rxAppendBounded (tailBytes d)
  simp only [Machine.rxConsecutive, h.rxlv_eq]
  split
  · refine (happend.of_state ?_).answer _ _
    rw [happend.rxcnt_eq, happend.rxlen_eq, happend.state_eq]
  · exact h.answer _ _

theorem SameBelowCounts.rxFlowControl {s t : State} (h : SameBelowCounts s t) :
    SameBelowCounts (rxFlowControl s) (rxFlowControl t) :=
  (h.of_state rfl).answer _ _

/-! ### The commands of the interface -/

/-- Two outcomes are next states that agree below the counts. -/
def SameNext (o p : Host.Outcome State Fault Refusal) : Prop :=
  ∃ s t : State, o = .next s ∧ p = .next t ∧ SameBelowCounts s t

theorem SameBelowCounts.sameNext {s t : State} (h : SameBelowCounts s t) :
    SameNext (.next s) (.next t) :=
  ⟨s, t, rfl, rfl, h⟩

/-- LOAD writes every byte its length covers, and clears the count of the reply (R170, R171). -/
theorem SameBelowCounts.execLoad {s t : State} (h : SameBelowCounts s t) (tidin : Word)
    (a f : Bool) (p : List Byte) :
    SameNext (execLoad tidin a f p s) (execLoad tidin a f p t) := by
  obtain ⟨tx, rx, rfl⟩ := h.exists_buffers
  unfold Machine.execLoad
  split
  · exact (h.answer _ _).sameNext
  refine SameBelowCounts.sameNext ⟨rfl, fun i hi => ?_, fun i hi => absurd hi (Nat.not_lt_zero i)⟩
  have hi : i < (BitVec.ofNat 12 p.length).toNat := hi
  have hlen : (BitVec.ofNat 12 p.length).toNat ≤ p.length := by
    rw [BitVec.toNat_ofNat]
    exact Nat.mod_le ..
  have hwritten : i < (p.take (BitVec.ofNat 12 p.length).toNat).length := by
    rw [List.length_take]
    omega
  simp only [txByte, answer_txbuf, read_writePayload, if_pos hwritten]

theorem SameBelowCounts.execProduceNext {s t : State} (h : SameBelowCounts s t) :
    SameNext (execProduceNext s) (execProduceNext t) := by
  obtain ⟨tx, rx, rfl⟩ := h.exists_buffers
  have hgate : produceGate { s with txbuf := tx, rxbuf := rx } = produceGate s := rfl
  simp only [Machine.execProduceNext, hgate]
  split_ifs with hg hf hl hp hlt
  · exact (h.answer _ _).sameNext
  · exact h.txRawFrame.sameNext
  · exact h.txSingleFrame.sameNext
  · exact (h.txFirstFrame (BitVec.not_lt.1 hl)).sameNext
  · exact (h.txConsecutiveFrame hlt).sameNext
  · exact h.txNothing.sameNext

theorem SameBelowCounts.execProduceFc {s t : State} (h : SameBelowCounts s t) :
    SameNext (execProduceFc s) (execProduceFc t) := by
  obtain ⟨tx, rx, rfl⟩ := h.exists_buffers
  simp only [Machine.execProduceFc]
  split
  · exact h.txFlowControl.sameNext
  · exact (h.answer _ _).sameNext

theorem SameBelowCounts.execConsume {s t : State} (h : SameBelowCounts s t) (rxid : Word)
    (d : Frame) : SameNext (execConsume rxid d s) (execConsume rxid d t) := by
  obtain ⟨tx, rx, rfl⟩ := h.exists_buffers
  have hmatch : idMatches rxid { s with txbuf := tx, rxbuf := rx } = idMatches rxid s := rfl
  simp only [Machine.execConsume, hmatch]
  split_ifs with hm ha hs h0 h1 h2 h3
  · exact (h.answer _ _).sameNext
  · exact h.rxFlowControl.sameNext
  · exact (h.answer _ _).sameNext
  · exact (h.rxSingle _ _).sameNext
  · exact (h.rxFirst _ _).sameNext
  · exact (h.rxConsecutive _).sameNext
  · exact h.rxFlowControl.sameNext
  · exact (h.answer _ _).sameNext

theorem SameBelowCounts.execReadStatus {s t : State} (h : SameBelowCounts s t) :
    SameNext (execReadStatus s) (execReadStatus t) := by
  obtain ⟨tx, rx, rfl⟩ := h.exists_buffers
  exact (h.answer _ _).sameNext

/-- READ_RX answers a byte only below `RXCNT` (R174). -/
theorem SameBelowCounts.execReadRx {s t : State} (h : SameBelowCounts s t) (j : BitVec 12) :
    SameNext (execReadRx j s) (execReadRx j t) := by
  by_cases hj : s.rxcnt ≤ j
  · rw [execReadRx_of_le hj, execReadRx_of_le (h.rxcnt_eq ▸ hj)]
    exact (h.answer _ _).sameNext
  · have hj : j < s.rxcnt := BitVec.not_le.1 hj
    rw [execReadRx_of_lt hj, execReadRx_of_lt (h.rxcnt_eq ▸ hj),
      ← h.reassembled j.toNat (BitVec.lt_def.1 hj)]
    exact (h.answer _ _).sameNext

/-- A command of the interface answers next states, and they agree below the counts again. -/
theorem SameBelowCounts.exec {s t : State} (h : SameBelowCounts s t) {c : Command} {i : Instr}
    (hdec : decode (.cmd c) = .ok i) : SameNext (exec i s) (exec i t) := by
  obtain rfl | ⟨raw, rfl⟩ | ⟨p, a, d, rfl⟩ | ⟨a, rfl⟩ | ⟨tidin, a, f, p, rfl, -⟩ | rfl | rfl |
    ⟨rxid, d, rfl⟩ | rfl | ⟨j, rfl⟩ := decodeCommand_isCommand hdec
  · exact (h.answer _ _).sameNext
  · exact (h.answer _ _).sameNext
  · exact (h.answer _ _).sameNext
  · exact (h.answer _ _).sameNext
  · exact h.execLoad tidin a f p
  · exact h.execProduceNext
  · exact h.execProduceFc
  · exact h.execConsume rxid d
  · exact h.execReadStatus
  · exact h.execReadRx j

/-- Settles O55 (R52, R53, R56): the two ports are the same, so both states idle, both are reset, or
both run the same command. -/
theorem bytesAboveTheCountsAreNeverSeen : Obligations.BytesAboveTheCountsAreNeverSeen := by
  intro s t s' h hstep
  have hport := h.port_eq
  obtain ⟨hs, rfl⟩ | ⟨rest, hs, rfl⟩ | ⟨c, rest, i, hs, hdec, hexec⟩ := step_cases hstep
  · exact ⟨t, step_of_port_nil (hport.trans hs), h⟩
  · exact ⟨_, step_of_port_reset (hport.trans hs), (h.of_port rest).resetEvent⟩
  · obtain ⟨u, t', hu, ht, hsame⟩ := (h.of_port rest).exec hdec
    cases hexec.symm.trans hu
    exact ⟨t', (step_of_port_command (hport.trans hs) hdec).trans ht, hsame⟩

/-- Settles O40 (R60, R108): what each of the five answers is taken from its operands, the registers
and `RXBUF`, and it writes none of them. -/
theorem readsHaveNoSideEffect : Obligations.ReadsHaveNoSideEffect := by
  intro raw pri arb snd j s i hi
  simp only [List.mem_cons, List.not_mem_nil, or_false] at hi
  obtain rfl | rfl | rfl | rfl | rfl := hi
  · exact ⟨_, rfl, rfl⟩
  · exact ⟨_, rfl, rfl⟩
  · exact ⟨_, rfl, rfl⟩
  · exact ⟨_, rfl, rfl⟩
  · by_cases hj : s.rxcnt ≤ j
    · exact ⟨_, execReadRx_of_le hj, execReadRx_of_le hj⟩
    · have hj : j < s.rxcnt := BitVec.not_le.1 hj
      exact ⟨_, execReadRx_of_lt hj, execReadRx_of_lt hj⟩

end Sys2Proof.Machine
end

section
/-! ## Encoding: the round trips, the operands and the results (30_encoding.md R71 to R87, R74)

That the decoder reads back what the encoder writes is proved row by row in `Laws.RoundTrip`. The
converse goes through the fields: a legal header, an identifier and a frame are each equal to what the
encoder packs from the slices the decoder takes. -/

namespace Sys2Proof.Machine

/-! ### From an instruction to its code and back -/

theorem decode_encode : ∀ i : Instr, Laws.RoundTrip.Statement i
  | .decode raw => Laws.RoundTrip.decode raw
  | .encExt pri arb snd => Laws.RoundTrip.encExt pri arb snd
  | .encStd arb => Laws.RoundTrip.encStd arb
  | .load tidin a f p => Laws.RoundTrip.load tidin a f p
  | .produceNext => Laws.RoundTrip.produceNext
  | .produceFc => Laws.RoundTrip.produceFc
  | .consume rxid d => Laws.RoundTrip.consume rxid d
  | .readStatus => Laws.RoundTrip.readStatus
  | .readRx j => Laws.RoundTrip.readRx j
  | .reservedOp h => Laws.RoundTrip.reservedOp h
  | .idStd arb => Laws.RoundTrip.idStd arb
  | .idExt pad pri arb snd => Laws.RoundTrip.idExt pad pri arb snd
  | .rxSf rxid n d => Laws.RoundTrip.rxSf rxid n d
  | .rxFf rxid n d => Laws.RoundTrip.rxFf rxid n d
  | .rxCf rxid n d => Laws.RoundTrip.rxCf rxid n d
  | .rxFc rxid n d => Laws.RoundTrip.rxFc rxid n d
  | .rxRsvd47 rxid low d => Laws.RoundTrip.rxRsvd47 rxid low d
  | .rxRsvd8F rxid low d => Laws.RoundTrip.rxRsvd8F rxid low d
  | .txRaw => Laws.RoundTrip.txRaw
  | .txSf => Laws.RoundTrip.txSf
  | .txFf => Laws.RoundTrip.txFf
  | .txCf => Laws.RoundTrip.txCf
  | .txNone => Laws.RoundTrip.txNone
  | .txFc => Laws.RoundTrip.txFc

theorem encode_eq_none_iff (i : Instr) :
    encode i = none ↔ i ∈ [Instr.txRaw, .txSf, .txFf, .txCf, .txNone, .txFc] := by
  cases i <;> simp [encode]

/-! ### A legal header is what the encoder packs from its fields (R71) -/

theorem legal_fields {h : Word} (hl : illegalHeader h = false) :
    headerReservedHigh h = 0 ∧ headerReservedLow h = 0 ∧
      (headerOp h ≠ 4 → headerOp h ≠ 9 → headerN h = 0) ∧
      (headerOp h ≠ 4 → headerF h = false ∧ headerA h = false) := by
  simp only [illegalHeader, Bool.or_eq_false_iff, Bool.and_eq_false_iff, bne_eq_false_iff_eq] at hl
  obtain ⟨⟨⟨⟨-, hhigh⟩, hlow⟩, hN⟩, hFA⟩ := hl
  exact ⟨hhigh, hlow, fun h4 h9 => hN.resolve_left (not_or.2 ⟨h4, h9⟩), hFA.resolve_left⟩

theorem legal_op {h : Word} (hl : illegalHeader h = false) :
    0 < (headerOp h).toNat ∧ (headerOp h).toNat < 10 := by
  rw [← Bool.not_eq_true, illegalHeader_iff] at hl
  rw [headerOp_toNat]
  omega

theorem encodeHeader_fields_of_legal {h : Word} {n : Nat} (hl : illegalHeader h = false)
    (hop : (headerOp h).toNat = n) :
    encodeHeader (headerN h) (headerF h) (headerA h) (BitVec.ofNat 4 n) = h := by
  obtain ⟨hhigh, hlow, -, -⟩ := legal_fields hl
  rw [← hop, BitVec.ofNat_toNat, BitVec.setWidth_eq]
  exact (header_eq hhigh hlow).symm

theorem plainHeader_of_legal {h : Word} {n : Nat} (hl : illegalHeader h = false)
    (hop : (headerOp h).toNat = n) (h4 : n ≠ 4) (h9 : n ≠ 9) :
    plainHeader (BitVec.ofNat 4 n) = h := by
  obtain ⟨-, -, hN, hFA⟩ := legal_fields hl
  have hop4 : headerOp h ≠ 4 := fun e => h4 (hop ▸ congrArg BitVec.toNat e)
  have hop9 : headerOp h ≠ 9 := fun e => h9 (hop ▸ congrArg BitVec.toNat e)
  obtain ⟨hF, hA⟩ := hFA hop4
  have hfields := encodeHeader_fields_of_legal hl hop
  rwa [hN hop4 hop9, hF, hA] at hfields

theorem readRxHeader_of_legal {h : Word} (hl : illegalHeader h = false)
    (hop : (headerOp h).toNat = 9) : encodeHeader (headerN h) false false 9 = h := by
  obtain ⟨-, -, -, hFA⟩ := legal_fields hl
  obtain ⟨hF, hA⟩ := hFA fun e => absurd (hop ▸ congrArg BitVec.toNat e) (by decide)
  have hfields := encodeHeader_fields_of_legal hl hop
  rwa [hF, hA] at hfields

/-! ### What each decoder reads has the code it was read from -/

theorem wellFormed_and_encode_of_decodeCommand {c : Command} {i : Instr}
    (hl : illegalHeader c.header = false) (h : decodeCommand c = .ok i) :
    i.wellFormed = true ∧ encode i = some (.cmd c) := by
  obtain ⟨hd, ws, bs⟩ := c
  replace hl : illegalHeader hd = false := hl
  have plain {n : Nat} (hop : (headerOp hd).toNat = n) (h4 : n ≠ 4) (h9 : n ≠ 9) :
      some (Code.cmd ⟨plainHeader (BitVec.ofNat 4 n), ws, bs⟩) = some (.cmd ⟨hd, ws, bs⟩) := by
    rw [plainHeader_of_legal hl hop h4 h9]
  simp only [decodeCommand, hl, Bool.false_eq_true, ↓reduceIte] at h
  split at h
  case h_1 hop | h_2 hop | h_3 hop | h_5 hop | h_6 hop | h_7 hop | h_8 hop =>
    split at h <;> cases h
    exact ⟨rfl, plain hop (by decide) (by decide)⟩
  case h_4 hop =>
    split at h
    · split at h <;> cases h
      rename_i hlen
      have hN := (headerN hd).isLt
      have hheader : encodeHeader (headerN hd) (headerF hd) (headerA hd) 4 = hd :=
        encodeHeader_fields_of_legal hl hop
      refine ⟨decide_eq_true (by simp only [Config.TX_CAP]; omega), ?_⟩
      rw [encode, hlen, BitVec.ofNat_toNat, BitVec.setWidth_eq, hheader]
    · cases h
  case h_9 hop =>
    split at h <;> cases h
    refine ⟨rfl, ?_⟩
    rw [encode, readRxHeader_of_legal hl hop]
  case h_10 => cases h

/-- A standard identifier has no bit above its arbitration field (R76). -/
theorem idStd_slice {raw : Word} (h : raw < Config.STD_LIMIT) :
    (0#21 ++ raw.extractLsb' 0 11 : Word) = raw := by
  have hhigh : raw.extractLsb' 11 21 = 0#21 := by
    rw [BitVec.lt_def, stdLimit_toNat] at h
    apply BitVec.eq_of_toNat_eq
    rw [BitVec.extractLsb'_toNat, Nat.shiftRight_eq_div_pow, Nat.div_eq_of_lt h]
    rfl
  rw [← hhigh]
  exact BitVec.extractLsb'_append_extractLsb' (w := 21) (len := 11)

/-- The four fields of R75 leave no bit of an identifier out. -/
theorem extWord_slices (raw : Word) :
    extWord (raw.extractLsb' 29 3) (raw.extractLsb' 26 3) (raw.extractLsb' 13 13)
      (raw.extractLsb' 0 13) = raw := by
  have hpri : raw.extractLsb' 29 3 ++ raw.extractLsb' 26 3 = raw.extractLsb' 26 6 :=
    BitVec.extractLsb'_append_extractLsb'_eq_extractLsb' rfl
  have harb : raw.extractLsb' 26 6 ++ raw.extractLsb' 13 13 = raw.extractLsb' 13 19 :=
    BitVec.extractLsb'_append_extractLsb'_eq_extractLsb' rfl
  rw [extWord, hpri, harb]
  exact BitVec.extractLsb'_append_extractLsb' (w := 19)

theorem wellFormed_and_encode_of_decodeIdent (raw : Word) :
    (decodeIdent raw).wellFormed = true ∧ encode (decodeIdent raw) = some (.ident raw) := by
  unfold decodeIdent
  split
  · rename_i hstd
    exact ⟨rfl, by rw [encode, idStd_slice hstd]⟩
  · rename_i hext
    refine ⟨?_, by rw [encode, extWord_slices]⟩
    rw [Instr.wellFormed, extWord_slices]
    exact decide_eq_true (BitVec.not_lt.1 hext)

theorem wellFormed_and_encode_of_decodeFrame (rxid : Word) (d : Frame) :
    (decodeFrame rxid d).wellFormed = true ∧
      encode (decodeFrame rxid d) = some (.frame rxid d) := by
  have kind {n : Nat} (h : d.pci.toNat = n) :
      some (Code.frame rxid ⟨BitVec.ofNat 4 n ++ d.nibble, d.tail⟩) = some (.frame rxid d) := by
    rw [← h, BitVec.ofNat_toNat, BitVec.setWidth_eq, ← frame_eq]
  have upper : ∀ b : Byte, b.getLsbD 7 = true → 0b1#1 ++ b.extractLsb' 0 7 = b := by decide
  have middle : ∀ b : Byte, b.getLsbD 7 ≠ true → (b.extractLsb' 4 4).toNat ≠ 0 →
      (b.extractLsb' 4 4).toNat ≠ 1 → (b.extractLsb' 4 4).toNat ≠ 2 →
      (b.extractLsb' 4 4).toNat ≠ 3 → 0b01#2 ++ b.extractLsb' 0 6 = b := by decide
  unfold decodeFrame
  split
  case h_1 hpci | h_2 hpci | h_3 hpci | h_4 hpci => exact ⟨rfl, kind hpci⟩
  case h_5 h0 h1 h2 h3 =>
    split
    · rename_i hbit
      exact ⟨rfl, by rw [encode, upper d.d0 hbit]⟩
    · rename_i hbit
      exact ⟨rfl, by rw [encode, middle d.d0 hbit h0 h1 h2 h3]⟩

theorem decodeCommand_of_illegal {c : Command} (hl : illegalHeader c.header = true) :
    decodeCommand c = .ok (.reservedOp c.header) :=
  if_pos hl

/-- Settles O56 (R71 to R83, R87, R88): from the instruction's side by its row, from the code's side by
the decoder that read it. -/
theorem decodeReadsBackWhatEncodeWrites : Obligations.DecodeReadsBackWhatEncodeWrites := by
  refine ⟨fun i hw => ⟨decode_encode i hw, encode_eq_none_iff i⟩, fun w i h => ?_⟩
  cases w with
  | cmd c =>
    cases hl : illegalHeader c.header with
    | true =>
      cases (decodeCommand_of_illegal hl).symm.trans h
      exact ⟨hl, .inr ⟨c, rfl, hl, rfl⟩⟩
    | false =>
      obtain ⟨hw, hencode⟩ := wellFormed_and_encode_of_decodeCommand hl h
      exact ⟨hw, .inl hencode⟩
  | ident raw =>
    cases h
    obtain ⟨hw, hencode⟩ := wellFormed_and_encode_of_decodeIdent raw
    exact ⟨hw, .inl hencode⟩
  | frame rxid d =>
    cases h
    obtain ⟨hw, hencode⟩ := wellFormed_and_encode_of_decodeFrame rxid d
    exact ⟨hw, .inl hencode⟩

/-- Settles O57: each of the words of 95_test_vectors.md is evaluated. -/
theorem specWordsDecodeToTheirRows : Obligations.SpecWordsDecodeToTheirRows :=
  ⟨rfl, rfl, rfl, rfl, rfl, rfl⟩

/-! ### DECODE and the forms of an identifier (R77) -/

/-- Masking a shifted word is taking a slice of it. -/
theorem shift_and_mask_eq (w : Word) (k n : Nat) (hn : n ≤ 32) :
    (w >>> k) &&& BitVec.ofNat 32 (2 ^ n - 1) = (w.extractLsb' k n).setWidth 32 := by
  have hpow : 2 ^ n ≤ 2 ^ 32 := Nat.pow_le_pow_right (by decide) hn
  have hmask : 2 ^ n - 1 < 2 ^ 32 := by omega
  have hslice : (w.toNat >>> k) % 2 ^ n < 2 ^ 32 :=
    Nat.lt_of_lt_of_le (Nat.mod_lt _ (Nat.two_pow_pos n)) hpow
  apply BitVec.eq_of_toNat_eq
  rw [BitVec.toNat_and, BitVec.toNat_ushiftRight, BitVec.toNat_ofNat, Nat.mod_eq_of_lt hmask,
    Nat.and_two_pow_sub_one_eq_mod, BitVec.toNat_setWidth, BitVec.extractLsb'_toNat,
    Nat.mod_eq_of_lt hslice]

/-- DECODE's masks take the slices the identifier decoder takes (R101, R102). -/
theorem identFields_eq_slices (raw : Word) :
    identFields raw =
      if raw < Config.STD_LIMIT then .standardId ((raw.extractLsb' 0 11).setWidth 13)
      else .extendedId (raw.extractLsb' 26 3) (raw.extractLsb' 13 13) (raw.extractLsb' 0 13) := by
  have hstd : raw &&& 0x7FF = (raw.extractLsb' 0 11).setWidth 32 :=
    shift_and_mask_eq raw 0 11 (by decide)
  have hpri : (raw >>> 26) &&& 0x7 = (raw.extractLsb' 26 3).setWidth 32 :=
    shift_and_mask_eq raw 26 3 (by decide)
  have harb : (raw >>> 13) &&& 0x1FFF = (raw.extractLsb' 13 13).setWidth 32 :=
    shift_and_mask_eq raw 13 13 (by decide)
  have hsnd : raw &&& 0x1FFF = (raw.extractLsb' 0 13).setWidth 32 :=
    shift_and_mask_eq raw 0 13 (by decide)
  rw [identFields, hstd, hpri, harb, hsnd]
  simp only [BitVec.setWidth_setWidth_of_le _ (show 13 ≤ 32 by decide),
    BitVec.setWidth_setWidth_of_le _ (show 3 ≤ 32 by decide), BitVec.setWidth_eq]

theorem exec_decode_eq_exec_decodeIdent (raw : Word) (s : State) :
    exec (.decode raw) s = exec (decodeIdent raw) s := by
  change execDecode raw s = _
  rw [execDecode, identFields_eq_slices, decodeIdent]
  split <;> rfl

/-- Settles O7 (R77, R87): both take the same slices of the word. -/
theorem decodeRunsTheIdentifiersForm : Obligations.DecodeRunsTheIdentifiersForm :=
  fun raw s => ⟨exec_decode_eq_exec_decodeIdent raw s, (wellFormed_and_encode_of_decodeIdent raw).1⟩

/-! ### The fields of every result (R74, R191) -/

/-- The state holds a result the row may answer. -/
def Answers (i : Instr) (t : State) : Prop :=
  ∃ r : Result, t.result = some r ∧ mayAnswer i r = true

theorem Answers.answer {i : Instr} {st : Status} {f : Fields} {s : State}
    (h : mayAnswer i ⟨st, f⟩ = true) : Answers i (answer st f s) :=
  ⟨⟨st, f⟩, rfl, h⟩

theorem Answers.identFields (raw : Word) (s : State) :
    Answers (.decode raw) (Machine.answer .ok (identFields raw) s) := by
  rw [identFields_eq_slices]
  split
  · exact .answer rfl
  · exact .answer rfl

theorem Answers.takeBranch {i : Instr} {b : Bool} {e s t : State}
    (h : takeBranch b e s = .next t) (hbad : mayAnswer i ⟨.badState, .none⟩ = true)
    (he : Answers i e) : Answers i t := by
  obtain rfl | ⟨-, -, rfl⟩ := takeBranch_next h
  · exact .answer hbad
  · exact he

theorem Answers.rxSingle {i : Instr} (hok : mayAnswer i ⟨.ok, .none⟩ = true)
    (hpending : mayAnswer i ⟨.pending, .none⟩ = true) (n : BitVec 4) (d : FrameTail) (s : State) :
    Answers i (rxSingle n d s) := by
  unfold Machine.rxSingle
  split
  · exact .answer hpending
  · exact .answer hok

theorem Answers.rxConsecutive {i : Instr} (hok : mayAnswer i ⟨.ok, .none⟩ = true)
    (hignored : mayAnswer i ⟨.ignored, .none⟩ = true) (d : FrameTail) (s : State) :
    Answers i (rxConsecutive d s) := by
  unfold Machine.rxConsecutive
  split
  · exact .answer hok
  · exact .answer hignored

theorem Answers.execProduceNext {s t : State} (h : execProduceNext s = .next t) :
    Answers .produceNext t := by
  unfold Machine.execProduceNext at h
  split_ifs at h <;> (cases h; exact .answer rfl)

theorem Answers.execConsume {rxid : Word} {d : Frame} {s t : State}
    (h : execConsume rxid d s = .next t) : Answers (.consume rxid d) t := by
  unfold Machine.execConsume at h
  split_ifs at h <;> cases h
  · exact .answer rfl
  · exact .answer rfl
  · exact .answer rfl
  · exact .rxSingle rfl rfl _ _ s
  · exact .answer rfl
  · exact .rxConsecutive rfl rfl _ s
  · exact .answer rfl
  · exact .answer rfl

theorem exec_answers {i : Instr} {s t : State} (h : exec i s = .next t) : Answers i t := by
  cases i with
  | decode raw => cases h; exact .identFields raw s
  | encExt p a d => cases h; exact .answer rfl
  | encStd a => cases h; exact .answer rfl
  | load tidin a f p =>
    simp only [exec, execLoad] at h
    split at h <;> (cases h; exact .answer rfl)
  | produceNext => exact .execProduceNext h
  | produceFc =>
    simp only [exec, execProduceFc] at h
    split at h <;> (cases h; exact .answer rfl)
  | consume rxid d => exact .execConsume h
  | readStatus => cases h; exact .answer rfl
  | readRx j =>
    simp only [exec, execReadRx] at h
    split at h <;> (cases h; exact .answer rfl)
  | reservedOp hd => cases h; exact .answer rfl
  | idStd a => cases h; exact .answer rfl
  | idExt p q a d => cases h; exact .answer rfl
  | rxSf rxid n d =>
    cases h
    split
    · exact .rxSingle rfl rfl n d s
    · exact .answer rfl
  | rxFf rxid n d => cases h; split <;> exact .answer rfl
  | rxCf rxid n d =>
    cases h
    split
    · exact .rxConsecutive rfl rfl d s
    · exact .answer rfl
  | rxFc rxid n d => cases h; split <;> exact .answer rfl
  | rxRsvd47 rxid n d => cases h; exact .answer rfl
  | rxRsvd8F rxid n d => cases h; exact .answer rfl
  | txRaw => exact .takeBranch h rfl (.answer rfl)
  | txSf => exact .takeBranch h rfl (.answer rfl)
  | txFf => exact .takeBranch h rfl (.answer rfl)
  | txCf => exact .takeBranch h rfl (.answer rfl)
  | txNone => exact .takeBranch h rfl (.answer rfl)
  | txFc =>
    simp only [exec, execTxFc] at h
    split at h <;> (cases h; exact .answer rfl)

/-- Settles O41 (R74, R191), row by row. -/
theorem everyResultHasItsFields : Obligations.EveryResultHasItsFields :=
  fun _ _ _ h => exec_answers h

/-! ### The operands of a legal header (R73) -/

theorem wordOperands_headerOp (h : Word) :
    wordOperands (headerOp h) =
      if h.toNat % 16 = 2 then 3
      else if h.toNat % 16 = 1 ∨ h.toNat % 16 = 3 ∨ h.toNat % 16 = 4 ∨ h.toNat % 16 = 7 then 1
      else 0 := by
  have table : ∀ op : BitVec 4, wordOperands op =
      if op.toNat = 2 then 3
      else if op.toNat = 1 ∨ op.toNat = 3 ∨ op.toNat = 4 ∨ op.toNat = 7 then 1 else 0 := by decide
  rw [table, headerOp_toNat]

theorem byteOperands_eq (h : Word) :
    byteOperands h =
      if h.toNat % 16 = 4 then h.toNat / 2 ^ 8 % 4096 else if h.toNat % 16 = 7 then 8 else 0 := by
  rw [← headerOp_toNat, ← headerN_toNat]
  unfold byteOperands
  split
  case h_1 hop => rw [if_pos hop]
  case h_2 hop => rw [if_neg (by omega), if_pos hop]
  case h_3 h4 h7 => rw [if_neg h4, if_neg h7]

theorem operands_of_encode {c : Command} {i : Instr} (hw : i.wellFormed = true)
    (hl : illegalHeader c.header = false) (h : encode i = some (.cmd c)) :
    c.words.length = wordOperands (headerOp c.header) ∧
      c.bytes.length = byteOperands c.header := by
  cases i with
  | decode | encExt | encStd | produceNext | produceFc | consume | readStatus =>
    cases h
    exact ⟨rfl, rfl⟩
  | load tidin a f p =>
    cases h
    have hw : p.length ≤ 4095 := of_decide_eq_true hw
    have hlen : (BitVec.ofNat 12 p.length).toNat = p.length := by
      rw [BitVec.toNat_ofNat]
      omega
    simp only [byteOperands, headerOp_encodeHeader, headerN_encodeHeader]
    exact ⟨rfl, hlen.symm⟩
  | readRx j =>
    cases h
    simp only [byteOperands, headerOp_encodeHeader]
    exact ⟨rfl, rfl⟩
  | reservedOp hd =>
    cases h
    exact absurd hw (by simp [Instr.wellFormed, hl])
  | _ => cases h

theorem exists_of_length_eq_eight {l : List Byte} (h : l.length = 8) :
    ∃ d0 d1 d2 d3 d4 d5 d6 d7, l = [d0, d1, d2, d3, d4, d5, d6, d7] := by
  match l, h with
  | [d0, d1, d2, d3, d4, d5, d6, d7], _ => exact ⟨d0, d1, d2, d3, d4, d5, d6, d7, rfl⟩

theorem decodeCommand_of_operands {c : Command} (hl : illegalHeader c.header = false)
    (hw : c.words.length = wordOperands (headerOp c.header))
    (hb : c.bytes.length = byteOperands c.header) : ∃ i, decodeCommand c = .ok i := by
  obtain ⟨hd, ws, bs⟩ := c
  obtain ⟨hpos, hlt⟩ : 0 < (headerOp hd).toNat ∧ (headerOp hd).toNat < 10 := legal_op hl
  simp only [wordOperands] at hw
  simp only [byteOperands] at hb
  simp only [decodeCommand, hl, Bool.false_eq_true, ↓reduceIte]
  split
  case h_1 hop | h_3 hop =>
    simp only [hop] at hw hb
    obtain ⟨w, rfl⟩ := List.length_eq_one_iff.1 hw
    obtain rfl := List.eq_nil_of_length_eq_zero hb
    exact ⟨_, rfl⟩
  case h_2 hop =>
    simp only [hop] at hw hb
    obtain ⟨pri, arb, snd, rfl⟩ := List.length_eq_three.1 hw
    obtain rfl := List.eq_nil_of_length_eq_zero hb
    exact ⟨_, rfl⟩
  case h_4 hop =>
    simp only [hop] at hw hb
    obtain ⟨tidin, rfl⟩ := List.length_eq_one_iff.1 hw
    exact ⟨_, if_pos hb⟩
  case h_7 hop =>
    simp only [hop] at hw hb
    obtain ⟨rxid, rfl⟩ := List.length_eq_one_iff.1 hw
    obtain ⟨d0, d1, d2, d3, d4, d5, d6, d7, rfl⟩ := exists_of_length_eq_eight hb
    exact ⟨_, rfl⟩
  case h_5 hop | h_6 hop | h_8 hop | h_9 hop =>
    simp only [hop] at hw hb
    obtain rfl := List.eq_nil_of_length_eq_zero hw
    obtain rfl := List.eq_nil_of_length_eq_zero hb
    exact ⟨_, rfl⟩
  case h_10 =>
    simp only [imp_false] at *
    omega

/-- A transaction with a legal header is a command exactly with the operands of R73. -/
theorem decodeCommand_ok_iff {c : Command} (hl : illegalHeader c.header = false) :
    (∃ i, decodeCommand c = .ok i) ↔
      c.words.length = wordOperands (headerOp c.header) ∧
        c.bytes.length = byteOperands c.header := by
  refine ⟨fun ⟨i, h⟩ => ?_, fun ⟨hw, hb⟩ => decodeCommand_of_operands hl hw hb⟩
  obtain ⟨hw, hencode⟩ := wellFormed_and_encode_of_decodeCommand hl h
  exact operands_of_encode hw hl hencode

/-! ### A step with a command before it -/

theorem step_of_port_malformed {s : State} {c : Command} {rest : List Input} {e : DecodeError}
    (h : s.port = .command c :: rest) (hd : decode (.cmd c) = .error e) :
    step s = .refused (.malformedTransaction e) := by
  simp [step, takeInput, h, hd]

/-- A command of the interface answers a next state (R190): `SameBelowCounts.exec` says so of two
states, here one and the same. -/
theorem exec_next_of_decode {c : Command} {i : Instr} (hd : decode (.cmd c) = .ok i) (s : State) :
    ∃ t, exec i s = .next t := by
  obtain ⟨t, -, ht, -, -⟩ := (SameBelowCounts.refl s).exec hd
  exact ⟨t, ht⟩

/-- Settles O43 (R70, R87). -/
theorem stepRunsTheDecodedCommand : Obligations.StepRunsTheDecodedCommand :=
  fun _ _ _ _ hport hd => step_of_port_command hport hd

/-- Settles O45 (R73, R86): by `decodeCommand_ok_iff` the numbers of operands decide whether the
transaction decodes, and a command that decodes answers a next state. -/
theorem malformedTransactionsAreRefused : Obligations.MalformedTransactionsAreRefused := by
  intro c rest s h words bytes hport hop0 hop10 hhigh hlow hN hFA
  have hl : illegalHeader c.header = false := by
    rw [← Bool.not_eq_true, illegalHeader_iff]
    omega
  have hiff : (∃ i, decode (.cmd c) = .ok i) ↔ c.words.length = words ∧ c.bytes.length = bytes := by
    have hwords : wordOperands (headerOp c.header) = words := wordOperands_headerOp c.header
    have hbytes : byteOperands c.header = bytes := byteOperands_eq c.header
    rw [← hwords, ← hbytes]
    exact decodeCommand_ok_iff hl
  refine ⟨fun hne => ?_, fun hw hb => ?_⟩
  · cases hd : decode (.cmd c) with
    | error e => exact ⟨e, rfl, step_of_port_malformed hport hd⟩
    | ok i =>
      obtain ⟨hw, hb⟩ := hiff.1 ⟨i, hd⟩
      exact absurd hne (not_or.2 ⟨not_not.2 hw, not_not.2 hb⟩)
  · obtain ⟨i, hd⟩ := hiff.2 ⟨hw, hb⟩
    obtain ⟨t, ht⟩ := exec_next_of_decode hd { s with port := rest }
    exact ⟨i, t, hd, (step_of_port_command hport hd).trans ht⟩

end Sys2Proof.Machine
end

section
/-! ## The identifier codec: the results of its commands (40_identifier_codec.md R100 to R108)

DECODE answers the slices of its word (`exec_decode_eq_exec_decodeIdent`), and ENC_EXT's word is the
extended identifier of its masked operands, so the slices of that word give the operands back. -/

namespace Sys2Proof.Machine

/-! ### The word of an extended identifier -/

theorem append_toNat {m n : Nat} (x : BitVec m) (y : BitVec n) :
    (x ++ y).toNat = x.toNat * 2 ^ n + y.toNat := by
  rw [BitVec.toNat_append, ← Nat.shiftLeft_add_eq_or_of_lt y.isLt, Nat.shiftLeft_eq]

theorem extWord_toNat (pad pri : BitVec 3) (arb snd : BitVec 13) :
    (extWord pad pri arb snd).toNat =
      pad.toNat * 2 ^ 29 + pri.toNat * 2 ^ 26 + arb.toNat * 2 ^ 13 + snd.toNat := by
  simp only [extWord, append_toNat]
  omega

/-- ENC_EXT packs each operand, masked to its field, under zero padding bits (R103). -/
theorem encodeExtended_eq_extWord (pri arb snd : Word) :
    encodeExtended pri arb snd =
      extWord 0 (pri.setWidth 3) (arb.setWidth 13) (snd.setWidth 13) := by
  apply BitVec.eq_of_toNat_eq
  rw [encodeExtended_toNat, extWord_toNat]
  simp

/-- The words ENC_EXT gives in extended form: all but those of R106's excluded case. -/
theorem stdLimit_le_encodeExtended {pri arb snd : Word} (hp : pri.toNat < 8)
    (ha : arb.toNat < 0x2000) (hd : snd.toNat < 0x2000)
    (h : ¬ (pri.toNat = 0 ∧ arb.toNat = 0 ∧ snd.toNat < 0x800)) :
    0x800 ≤ (encodeExtended pri arb snd).toNat := by
  rw [encodeExtended_toNat]
  omega

/-- R106's excluded case: the word is the sender field alone. -/
theorem encodeExtended_of_zero {pri arb snd : Word} (hp : pri.toNat = 0) (ha : arb.toNat = 0)
    (hd : snd.toNat < 0x2000) : encodeExtended pri arb snd = snd := by
  apply BitVec.eq_of_toNat_eq
  rw [encodeExtended_toNat]
  omega

/-! ### The slices of a word -/

theorem slice_toNat (w : Word) (k n : Nat) :
    (w.extractLsb' k n).toNat = w.toNat / 2 ^ k % 2 ^ n := by
  rw [BitVec.extractLsb'_toNat, Nat.shiftRight_eq_div_pow]

/-- A word of the standard form is its arbitration field (R101). -/
theorem idStd_slice_setWidth {raw : Word} (h : raw.toNat < 0x800) :
    (raw.extractLsb' 0 11).setWidth 13 = raw.setWidth 13 := by
  apply BitVec.eq_of_toNat_eq
  rw [BitVec.toNat_setWidth, BitVec.toNat_setWidth, slice_toNat]
  omega

/-- A slice below bit `m` depends on the bits below `m` alone. -/
theorem slice_eq_of_mod_eq {raw other : Word} {m k n : Nat} (hm : k + n ≤ m)
    (h : raw.toNat % 2 ^ m = other.toNat % 2 ^ m) :
    raw.extractLsb' k n = other.extractLsb' k n := by
  apply BitVec.eq_of_getLsbD_eq
  intro i hi
  have hlt : k + i < m := by omega
  have hbit : raw.getLsbD (k + i) = other.getLsbD (k + i) := by
    simpa [← BitVec.testBit_toNat, Nat.testBit_mod_two_pow, hlt] using
      congrArg (Nat.testBit · (k + i)) h
  rw [BitVec.getLsbD_extractLsb', BitVec.getLsbD_extractLsb', hbit]

/-! ### DECODE, one equation per form -/

theorem exec_decode_of_standard {raw : Word} (h : raw.toNat < 0x800) (s : State) :
    exec (.decode raw) s = .next (answer .ok (.standardId (raw.setWidth 13)) s) := by
  have hstd : raw < Config.STD_LIMIT := h
  rw [exec_decode_eq_exec_decodeIdent, decodeIdent, if_pos hstd, ← idStd_slice_setWidth h]
  rfl

theorem exec_decode_of_extended {raw : Word} (h : 0x800 ≤ raw.toNat) (s : State) :
    exec (.decode raw) s =
      .next (answer .ok (.extendedId (raw.extractLsb' 26 3) (raw.extractLsb' 13 13)
        (raw.extractLsb' 0 13)) s) := by
  have hext : ¬ raw < Config.STD_LIMIT := Nat.not_lt.2 h
  rw [exec_decode_eq_exec_decodeIdent, decodeIdent, if_neg hext]
  rfl

/-- DECODE reads the operands of ENC_EXT back from a word of the extended form (R106). -/
theorem exec_decode_encodeExtended {pri arb snd : Word}
    (h : 0x800 ≤ (encodeExtended pri arb snd).toNat) (s : State) :
    exec (.decode (encodeExtended pri arb snd)) s =
      .next (answer .ok
        (.extendedId (pri.setWidth 3) (arb.setWidth 13) (snd.setWidth 13)) s) := by
  rw [exec_decode_of_extended h, encodeExtended_eq_extWord, extWord_pri, extWord_arb, extWord_snd]

/-- DECODE reads bits 28:0 of a word of the extended form (R107). -/
theorem exec_decode_congr_of_extended {raw other : Word} (hraw : 0x800 ≤ raw.toNat)
    (hother : 0x800 ≤ other.toNat) (h : raw.toNat % 2 ^ 29 = other.toNat % 2 ^ 29) (s : State) :
    exec (.decode raw) s = exec (.decode other) s := by
  have hpri : raw.extractLsb' 26 3 = other.extractLsb' 26 3 := slice_eq_of_mod_eq (by decide) h
  have harb : raw.extractLsb' 13 13 = other.extractLsb' 13 13 := slice_eq_of_mod_eq (by decide) h
  have hsnd : raw.extractLsb' 0 13 = other.extractLsb' 0 13 := slice_eq_of_mod_eq (by decide) h
  rw [exec_decode_of_extended hraw, exec_decode_of_extended hother, hpri, harb, hsnd]

/-! ### The obligations of the codec -/

/-- Settles O1 (R100 to R102), form by form. -/
theorem decodeReadsFieldsByValue : Obligations.DecodeReadsFieldsByValue := by
  refine fun raw s => ⟨fun hstd => ?_, fun hext => ?_⟩
  · have harb : (raw.setWidth 13).toNat = raw.toNat := by
      rw [BitVec.toNat_setWidth]
      omega
    exact ⟨_, harb, exec_decode_of_standard hstd s⟩
  · have hsnd : (raw.extractLsb' 0 13).toNat = raw.toNat % 0x2000 := by
      rw [slice_toNat]
      omega
    exact ⟨_, _, _, slice_toNat raw 26 3, slice_toNat raw 13 13, hsnd,
      exec_decode_of_extended hext s⟩

/-- Settles O2 (R103, R105): the word is `encodeExtended`, whose value `encodeExtended_toNat` gives. -/
theorem encExtPacksMaskedFields : Obligations.EncExtPacksMaskedFields :=
  fun pri arb snd _ => ⟨encodeExtended pri arb snd, encodeExtended_toNat pri arb snd, rfl⟩

/-- Settles O3 (R104, R105): the word is `encodeStandard`, whose value `encodeStandard_toNat` gives. -/
theorem encStdKeepsElevenBits : Obligations.EncStdKeepsElevenBits :=
  fun arb _ => ⟨encodeStandard arb, encodeStandard_toNat arb, rfl⟩

/-- Settles O4 (R106): outside the excluded case the word has the extended form; in it the word is the
sender field, which has the standard form. -/
theorem extendedRoundTripButForStandardWords :
    Obligations.ExtendedRoundTripButForStandardWords := by
  refine fun p a d s hp ha hd => ⟨encodeExtended p a d, rfl, fun hne => ?_, fun hp0 ha0 hd0 => ?_⟩
  · exact exec_decode_encodeExtended (stdLimit_le_encodeExtended hp ha hd hne) s
  · have hword : encodeExtended p a d = d := encodeExtended_of_zero hp0 ha0 hd
    rw [hword]
    exact ⟨rfl, exec_decode_of_standard hd0 s⟩

/-- Settles O5 (R107): the slices of the extended form lie below bit 29, and both named words have
that form. -/
theorem decodeIgnoresPadBits : Obligations.DecodeIgnoresPadBits := by
  refine ⟨fun raw other s hraw hother h => exec_decode_congr_of_extended hraw hother h s,
    fun s => ⟨?_, ?_⟩⟩
  · exact exec_decode_of_extended (raw := 0xE0000000) (by decide) s
  · exact exec_decode_congr_of_extended (by decide) (by decide) (by decide) s

end Sys2Proof.Machine
end

section
/-! ## Outbound framing (41_outbound_framing.md R120 to R131, R214, R219)

PRODUCE_NEXT and its five rows are followed through `Branch`, which pairs each row with its condition
and its effect; the frames through `segment`, which says at once where a header, the payload and the
padding lie. A transfer between two blocks is then a carried frame per step, kept in `Lockstep`. -/

namespace Sys2Proof.Machine

/-! ### The gate of PRODUCE_NEXT and its branches -/

theorem produceGate_iff (s : State) :
    produceGate s = true ↔ s.state = .ready ∨ s.state = .sending := by
  simp only [produceGate, Bool.or_eq_true, beq_iff_eq]

theorem produceGate_eq_false {s : State} (hr : s.state ≠ .ready) (hs : s.state ≠ .sending) :
    produceGate s = false := by
  rw [← Bool.not_eq_true, produceGate_iff]
  exact not_or.2 ⟨hr, hs⟩

theorem selectsRaw_iff (s : State) : selectsRaw s = true ↔ s.fcen = false := by
  simp [selectsRaw]

theorem selectsSingle_iff (s : State) :
    selectsSingle s = true ↔ s.fcen = true ∧ s.txlen.toNat < 8 := by
  simp [selectsSingle, BitVec.lt_def, sfLimit_toNat]

theorem selectsFirst_iff (s : State) :
    selectsFirst s = true ↔ s.fcen = true ∧ 8 ≤ s.txlen.toNat ∧ s.txprog = 0 := by
  simp [selectsFirst, BitVec.lt_def, sfLimit_toNat, and_assoc]

theorem selectsConsecutive_iff (s : State) :
    selectsConsecutive s = true ↔ s.fcen = true ∧ 8 ≤ s.txlen.toNat ∧ s.txprog ≠ 0 ∧
      s.txprog.toNat < s.txlen.toNat := by
  simp [selectsConsecutive, BitVec.lt_def, sfLimit_toNat, and_assoc]

theorem selectsNothing_iff (s : State) :
    selectsNothing s = true ↔ s.fcen = true ∧ 8 ≤ s.txlen.toNat ∧ s.txprog ≠ 0 ∧
      s.txlen.toNat ≤ s.txprog.toNat := by
  simp [selectsNothing, BitVec.lt_def, sfLimit_toNat, and_assoc]

/-- The rows of PRODUCE_NEXT, each with its condition of R120 and its effect. -/
inductive Branch (s : State) : Instr → Bool → State → Prop where
  | raw : Branch s .txRaw (selectsRaw s) (txRawFrame s)
  | single : Branch s .txSf (selectsSingle s) (txSingleFrame s)
  | first : Branch s .txFf (selectsFirst s) (txFirstFrame s)
  | consecutive : Branch s .txCf (selectsConsecutive s) (txConsecutiveFrame s)
  | nothing : Branch s .txNone (selectsNothing s) (txNothing s)

theorem Branch.exec_row {s e : State} {row : Instr} {b : Bool} (h : Branch s row b e) :
    exec row s = takeBranch b e s := by
  cases h <;> rfl

theorem Branch.of_mem {row : Instr} (h : row ∈ [Instr.txRaw, .txSf, .txFf, .txCf, .txNone])
    (s : State) : ∃ b e, Branch s row b e := by
  simp only [List.mem_cons, List.not_mem_nil, or_false] at h
  obtain rfl | rfl | rfl | rfl | rfl := h
  · exact ⟨_, _, .raw⟩
  · exact ⟨_, _, .single⟩
  · exact ⟨_, _, .first⟩
  · exact ⟨_, _, .consecutive⟩
  · exact ⟨_, _, .nothing⟩

theorem execProduceNext_of_closed {s : State} (hg : produceGate s = false) :
    execProduceNext s = .next (answer .badState .none s) := by
  simp [execProduceNext, hg]

/-- Behind the gate PRODUCE_NEXT has the effect of the branch that is selected (R120). -/
theorem Branch.execProduceNext {s e : State} {row : Instr} {b : Bool} (h : Branch s row b e)
    (hg : produceGate s = true) (hb : b = true) : execProduceNext s = .next e := by
  cases h with
  | raw =>
    have hf := (selectsRaw_iff s).1 hb
    simp [Machine.execProduceNext, hg, hf]
  | single =>
    obtain ⟨hf, hl⟩ := (selectsSingle_iff s).1 hb
    simp [Machine.execProduceNext, hg, hf, BitVec.lt_def, sfLimit_toNat, hl]
  | first =>
    obtain ⟨hf, hl, hp⟩ := (selectsFirst_iff s).1 hb
    simp [Machine.execProduceNext, hg, hf, BitVec.lt_def, sfLimit_toNat, Nat.not_lt.2 hl, hp]
  | consecutive =>
    obtain ⟨hf, hl, hp, hlt⟩ := (selectsConsecutive_iff s).1 hb
    have hp : s.txprog ≠ 0#12 := hp
    simp [Machine.execProduceNext, hg, hf, BitVec.lt_def, sfLimit_toNat, Nat.not_lt.2 hl, hp, hlt]
  | nothing =>
    obtain ⟨hf, hl, hp, hge⟩ := (selectsNothing_iff s).1 hb
    have hp : s.txprog ≠ 0#12 := hp
    simp [Machine.execProduceNext, hg, hf, BitVec.lt_def, sfLimit_toNat, Nat.not_lt.2 hl, hp,
      Nat.not_lt.2 hge]

/-- Where a branch is selected, PRODUCE_NEXT and the branch's row both have its effect. -/
theorem Branch.exec_of_selected {s e : State} {i row : Instr} {b : Bool} (h : Branch s row b e)
    (hi : i ∈ [Instr.produceNext, row]) (hs : s.state = .ready ∨ s.state = .sending)
    (hb : b = true) : exec i s = .next e := by
  have hg : produceGate s = true := (produceGate_iff s).2 hs
  obtain rfl | rfl := List.mem_pair.1 hi
  · exact h.execProduceNext hg hb
  · rw [h.exec_row]
    simp [takeBranch, hg, hb]

theorem Branch.exec_row_of_closed {s e : State} {row : Instr} {b : Bool} (h : Branch s row b e)
    (hg : produceGate s = false) : exec row s = .next (answer .badState .none s) := by
  rw [h.exec_row]
  simp [takeBranch, hg]

theorem Branch.exec_row_of_not_selected {s e : State} {row : Instr} {b : Bool}
    (h : Branch s row b e) (hs : s.state = .ready ∨ s.state = .sending) (hb : ¬ b = true) :
    exec row s = .refused .branchNotSelected := by
  rw [h.exec_row]
  simp [takeBranch, (produceGate_iff s).2 hs, hb]

/-- What PRODUCE_NEXT or a row of it answers is the gate's refusal or a branch's effect. -/
theorem exec_produce_cases {s t : State} {i : Instr}
    (hi : i ∈ [Instr.produceNext, .txRaw, .txSf, .txFf, .txCf, .txNone]) (h : exec i s = .next t) :
    t = answer .badState .none s ∨ ∃ row b, Branch s row b t := by
  obtain rfl | hrow := List.mem_cons.1 hi
  · have h : execProduceNext s = .next t := h
    unfold execProduceNext at h
    split_ifs at h <;> cases h
    · exact .inl rfl
    · exact .inr ⟨_, _, .raw⟩
    · exact .inr ⟨_, _, .single⟩
    · exact .inr ⟨_, _, .first⟩
    · exact .inr ⟨_, _, .consecutive⟩
    · exact .inr ⟨_, _, .nothing⟩
  · obtain ⟨b, e, hbranch⟩ := Branch.of_mem hrow s
    rw [hbranch.exec_row] at h
    obtain ht | ⟨-, -, rfl⟩ := takeBranch_next h
    · exact .inl ht
    · exact .inr ⟨i, b, hbranch⟩

/-! ### PRODUCE_FC and its row -/

theorem exec_produceFc_of_due {s : State} {i : Instr} (hi : i ∈ [Instr.produceFc, .txFc])
    (hs : s.state = .sendFlowControl) : exec i s = .next (txFlowControl s) := by
  obtain rfl | rfl := List.mem_pair.1 hi
  · exact if_pos hs
  · simp [exec, execTxFc, hs]

theorem exec_produceFc_of_not_due {s : State} {i : Instr} (hi : i ∈ [Instr.produceFc, .txFc])
    (hs : s.state ≠ .sendFlowControl) : exec i s = .next (answer .badState .none s) := by
  obtain rfl | rfl := List.mem_pair.1 hi
  · exact if_neg hs
  · change execTxFc s = _
    unfold execTxFc
    split
    · contradiction
    · rfl

/-! ### The emitted frames -/

/-- An emitted frame is addressed to `TID` itself (R127). -/
theorem emitFrame_eq (d : Frame) (s : State) :
    emitFrame d s = { s with result := some ⟨.ok, .frame (s.tid.setWidth 32) 0 d⟩ } := by
  rw [emitFrame, encodeStandard_tid]
  rfl

theorem txByte_of_read {s : State} {i : Nat} {b : Byte} (h : s.txbuf.read i = some b) :
    txByte s i = b := by
  rw [txByte, h]
  rfl

/-- A frame of a header, `k` payload bytes from index `a` on, and the padding (R122 to R125, R128). -/
def segment (header : List Byte) (s : State) (a k : Nat) : Frame :=
  paddedFrame (header ++ txSlice s a k)

theorem segment_payload {header : List Byte} {s : State} {a k j : Nat} (hj : j < k)
    (h8 : j + header.length < 8) :
    (segment header s a k).bytes[j + header.length]? = some (txByte s (a + j)) := by
  rw [segment, paddedFrame_bytes _ h8, List.getD_eq_getElem?_getD,
    List.getElem?_append_right (Nat.le_add_left ..), Nat.add_sub_cancel, txSlice_get hj]
  rfl

theorem segment_padding {header : List Byte} {s : State} {a k j : Nat}
    (hj : header.length + k ≤ j) (h8 : j < 8) :
    (segment header s a k).bytes[j]? = some 0xAA := by
  have hlen : (header ++ txSlice s a k).length ≤ j := by simpa using hj
  rw [segment, paddedFrame_bytes _ h8, List.getD_eq_default _ _ hlen]
  rfl

/-- The payload of a segment as the bytes the buffer holds (R52). -/
theorem segment_of_read {header : List Byte} {s : State} {a k j : Nat} {b : Byte} (hj : j < k)
    (h8 : j + header.length < 8) (hb : s.txbuf.read (a + j) = some b) :
    (segment header s a k).bytes[j + header.length]? = some b := by
  rw [segment_payload hj h8, txByte_of_read hb]

/-- The frame of TX_SF (R123). -/
def singleSegment (s : State) : Frame := segment [singleHeader s.txlen] s 0 s.txlen.toNat

/-- The frame of TX_FF (R124). -/
def firstSegment (s : State) : Frame := segment (firstHeader s.txlen) s 0 6

/-- The frame of TX_CF (R125). -/
def nextSegment (s : State) : Frame :=
  segment [consecutiveHeader s.seq] s s.txprog.toNat (min 7 (s.txlen.toNat - s.txprog.toNat))

theorem firstHeader_toNat (n : BitVec 12) :
    (0x1#4 ++ n.extractLsb' 8 4).toNat = 0x10 + n.toNat / 256 := by
  have hn := n.isLt
  rw [append_toNat, BitVec.extractLsb'_toNat, Nat.shiftRight_eq_div_pow]
  simp only [BitVec.toNat_ofNat]
  omega

/-! ### The obligations about one PRODUCE command -/

/-- Settles O8 (R121): the gate is closed. -/
theorem produceNextNeedsReadyOrSending : Obligations.ProduceNextNeedsReadyOrSending :=
  fun _ hr hs => execProduceNext_of_closed (produceGate_eq_false hr hs)

/-- Settles O14 (R130, R131). -/
theorem flowControlFrameOnlyWhenDue : Obligations.FlowControlFrameOnlyWhenDue := by
  refine fun s i hi => ⟨fun hs => ?_, exec_produceFc_of_not_due hi⟩
  rw [exec_produceFc_of_due hi hs, txFlowControl, emitFrame_eq]
  rfl

/-- Settles O18 (R120, R121): each row is refused on the negation of its condition. -/
theorem branchRowsStopWhereNotSelected : Obligations.BranchRowsStopWhereNotSelected := by
  refine fun s => ⟨fun hr hs i hi => ?_, fun hs => ⟨fun h => ?_, fun h => ?_, fun h => ?_,
    fun h => ?_, fun h => ?_⟩⟩
  · obtain ⟨b, e, hbranch⟩ := Branch.of_mem hi s
    exact hbranch.exec_row_of_closed (produceGate_eq_false hr hs)
  · refine Branch.raw.exec_row_of_not_selected hs ?_
    rw [selectsRaw_iff]
    grind
  · refine Branch.single.exec_row_of_not_selected hs ?_
    rw [selectsSingle_iff]
    grind
  · refine Branch.first.exec_row_of_not_selected hs ?_
    rw [selectsFirst_iff]
    grind
  · refine Branch.consecutive.exec_row_of_not_selected hs ?_
    rw [selectsConsecutive_iff]
    grind
  · refine Branch.nothing.exec_row_of_not_selected hs ?_
    rw [selectsNothing_iff]
    grind

/-- Settles O9 (R122): the frame is a segment without a header. -/
theorem rawFrameCarriesPayloadVerbatim : Obligations.RawFrameCarriesPayloadVerbatim := by
  refine fun s hs hf i hi => ⟨segment [] s 0 (min s.txlen.toNat 8), ?_, fun j hj b hb => ?_,
    fun j h8 hj => ?_⟩
  · exact (Branch.raw.exec_of_selected hi hs ((selectsRaw_iff s).2 hf)).trans
      (congrArg _ (emitFrame_eq _ _))
  · exact segment_of_read hj (by simp; omega) (by rwa [Nat.zero_add])
  · exact segment_padding (by simp; omega) h8

/-- Settles O10 (R123): the frame is a segment behind the length byte. -/
theorem shortPayloadGoesUnsegmented : Obligations.ShortPayloadGoesUnsegmented := by
  refine fun s hs hf hl i hi => ⟨singleSegment s, ?_, ?_, fun j hj b hb => ?_, fun j h8 hj => ?_⟩
  · exact (Branch.single.exec_of_selected hi hs ((selectsSingle_iff s).2 ⟨hf, hl⟩)).trans
      (congrArg _ (emitFrame_eq _ _))
  · exact singleHeader_toNat (by omega)
  · exact segment_of_read hj (by simp; omega) (by rwa [Nat.zero_add])
  · exact segment_padding (by simp; omega) h8

/-- Settles O11 (R124): the frame is a segment behind the two length bytes. -/
theorem longPayloadOpensWithFirstFrame : Obligations.LongPayloadOpensWithFirstFrame := by
  refine fun s hs hf hl hp i hi => ⟨firstSegment s, ?_, ?_, ?_, fun j hj b hb => ?_⟩
  · exact (Branch.first.exec_of_selected hi hs ((selectsFirst_iff s).2 ⟨hf, hl, hp⟩)).trans
      (congrArg _ (emitFrame_eq _ _))
  · exact firstHeader_toNat s.txlen
  · exact BitVec.extractLsb'_toNat 0 8 s.txlen
  · exact segment_of_read hj (by simp [firstHeader]; omega) (by rwa [Nat.zero_add])

/-- Settles O12 (R125): the frame is a segment from `TXPROG` on, behind the counter. -/
theorem consecutiveFrameCarriesNextBytes : Obligations.ConsecutiveFrameCarriesNextBytes := by
  intro s hs hf hl hp hlt i hi
  refine ⟨nextSegment s, (txConsecutiveFrame s).txprog, s.seq + 1, ?_,
    txConsecutiveFrame_txprog_toNat (Nat.le_of_lt hlt), BitVec.toNat_add _ _,
    consecutiveHeader_toNat s.seq, fun j hj b hb => ?_, fun j h8 hj => ?_⟩
  · exact (Branch.consecutive.exec_of_selected hi hs
      ((selectsConsecutive_iff s).2 ⟨hf, hl, hp, hlt⟩)).trans (congrArg _ (emitFrame_eq _ _))
  · exact segment_of_read hj (by simp; omega) hb
  · exact segment_padding (by simp; omega) h8

/-- Settles O13 (R126). -/
theorem nothingLeftReturnsToPostSend : Obligations.NothingLeftReturnsToPostSend := by
  intro s hs hf hl hp i hi
  have hzero : s.txprog ≠ 0 := by
    intro hz
    rw [← hp, hz] at hl
    exact absurd hl (by decide)
  exact Branch.nothing.exec_of_selected hi hs
    ((selectsNothing_iff s).2 ⟨hf, hl, hzero, by rw [hp]⟩)

/-- A branch writes `STATE`, `TXPROG`, `SEQ` and the result alone. -/
theorem Branch.writes {s e : State} {row : Instr} {b : Bool} (h : Branch s row b e) :
    e = { s with state := e.state, txprog := e.txprog, seq := e.seq, result := e.result } := by
  cases h <;> rfl

/-- Settles O17 (R120, R130). -/
theorem produceWritesOnlyTheSendSide : Obligations.ProduceWritesOnlyTheSendSide := by
  refine fun s t => ⟨fun i hi h => ?_, fun i hi h => ?_⟩
  · obtain rfl | ⟨row, b, hbranch⟩ := exec_produce_cases hi h
    · rfl
    · exact hbranch.writes
  · by_cases hs : s.state = .sendFlowControl
    · rw [exec_produceFc_of_due hi hs] at h
      cases h
      rfl
    · rw [exec_produceFc_of_not_due hi hs] at h
      cases h
      rfl

/-! ### What every command keeps and where its frame goes -/

/-- What LOAD alone sets: the payload, its length, the identifier and the flags (R129, R171). -/
structure SameSettings (s t : State) : Prop where
  txbuf : t.txbuf = s.txbuf
  txlen : t.txlen = s.txlen
  tid : t.tid = s.tid
  await : t.await = s.await
  fcen : t.fcen = s.fcen

theorem rxSingle_settings (n : BitVec 4) (d : FrameTail) (s : State) :
    SameSettings s (rxSingle n d s) := by
  unfold rxSingle
  split
  · exact ⟨rfl, rfl, rfl, rfl, rfl⟩
  · constructor <;> simp

theorem rxFirst_settings (n : BitVec 4) (d : FrameTail) (s : State) :
    SameSettings s (rxFirst n d s) := by
  constructor <;> simp [rxFirst]

theorem rxConsecutive_settings (d : FrameTail) (s : State) :
    SameSettings s (rxConsecutive d s) := by
  unfold rxConsecutive
  split
  · constructor <;> simp
  · exact ⟨rfl, rfl, rfl, rfl, rfl⟩

theorem Effect.sameSettings {i : Instr} {s t : State} (he : Effect i s t)
    (hi : ∀ tidin a f p, i ≠ .load tidin a f p) : SameSettings s t := by
  cases he with
  | load tidin a f p t hload => exact absurd hload (hi tidin a f p)
  | rxSingle rxid n d => exact rxSingle_settings n d s
  | rxFirst rxid n d => exact rxFirst_settings n d s
  | rxConsecutive rxid n d => exact rxConsecutive_settings d s
  | quiet | raw | single | first | consecutive | nothing | flowControl | rxFlowControl =>
    exact ⟨rfl, rfl, rfl, rfl, rfl⟩

/-- Settles O16: of a command's effects only a LOAD's writes the settings. -/
theorem onlyLoadWritesTheTransfersSettings : Obligations.OnlyLoadWritesTheTransfersSettings := by
  intro i s t hi h
  obtain ⟨hbuf, hlen, htid, hawait, hfcen⟩ := (exec_effect h).sameSettings hi
  exact ⟨hbuf, hlen, htid, hawait, hfcen⟩

/-- A command's result is an emitted frame, or has no frame among its fields. -/
theorem Effect.emits_or_noFrame {i : Instr} {s t : State} (he : Effect i s t) :
    (∃ d u, t = emitFrame d u ∧ u.tid = s.tid) ∨
      ∃ st f, t.result = some ⟨st, f⟩ ∧ f.noFrame := by
  cases he with
  | raw | single | first | consecutive | flowControl => exact .inl ⟨_, _, rfl, rfl⟩
  | quiet st f _ hf => exact .inr ⟨st, f, rfl, hf⟩
  | load tidin a f p t hi ht hload =>
    rw [execLoad, if_neg (BitVec.not_le.2 ht)] at hload
    cases hload
    exact .inr ⟨_, _, rfl, trivial⟩
  | nothing | rxFirst | rxFlowControl => exact .inr ⟨_, _, rfl, trivial⟩
  | rxSingle rxid n d =>
    unfold Machine.rxSingle
    split <;> exact .inr ⟨_, _, rfl, trivial⟩
  | rxConsecutive rxid n d =>
    unfold Machine.rxConsecutive
    split <;> exact .inr ⟨_, _, rfl, trivial⟩

/-- Settles O15 (R127): a frame in the result was emitted, and `emitFrame` addresses it. -/
theorem emittedFramesAreAddressed : Obligations.EmittedFramesAreAddressed := by
  intro i s t fid fide d h hresult
  obtain ⟨d', u, rfl, htid⟩ | ⟨st, f, hf, hno⟩ := (exec_effect h).emits_or_noFrame
  · rw [emitFrame_result, htid] at hresult
    cases hresult
    exact ⟨encodeStandard_tid s.tid, rfl, rfl⟩
  · rw [hresult] at hf
    cases hf
    exact hno.elim

/-! ### A frame carried to another block: what the receiver makes of it -/

theorem execConsume_single {rxid : Word} {n : BitVec 4} {d : FrameTail} {s : State}
    (hm : idMatches rxid s = true) (hs : s.state = .awaitingReply) :
    execConsume rxid ⟨0x0#4 ++ n, d⟩ s = .next (rxSingle n d s) := by
  simp [execConsume, hm, hs]

theorem execConsume_first {rxid : Word} {n : BitVec 4} {d : FrameTail} {s : State}
    (hm : idMatches rxid s = true) (hs : s.state = .awaitingReply) :
    execConsume rxid ⟨0x1#4 ++ n, d⟩ s = .next (rxFirst n d s) := by
  simp [execConsume, hm, hs]

theorem execConsume_consecutive {rxid : Word} {n : BitVec 4} {d : FrameTail} {s : State}
    (hm : idMatches rxid s = true) (hs : s.state = .awaitingReply) :
    execConsume rxid ⟨0x2#4 ++ n, d⟩ s = .next (rxConsecutive d s) := by
  simp [execConsume, hm, hs]

theorem execConsume_flowControl {rxid : Word} {n : BitVec 4} {d : FrameTail} {s : State}
    (hm : idMatches rxid s = true) (hs : s.state = .awaitingFlowControl) :
    execConsume rxid ⟨0x3#4 ++ n, d⟩ s = .next (rxFlowControl s) := by
  simp [execConsume, hm, hs]

/-- A frame emitted for `tid` matches a receiver that has the same low identifier byte (R127, R142). -/
theorem idMatches_emitted {tid : BitVec 11} {s : State} (h : tid.toNat % 256 = s.tid.toNat % 256) :
    idMatches (encodeStandard (tid.setWidth 32)) s = true := by
  rw [idMatches_iff, encodeStandard_toNat, BitVec.toNat_setWidth, ← h]
  omega

theorem lowByte_eq_iff (x y : BitVec 11) :
    x.extractLsb' 0 8 = y.extractLsb' 0 8 ↔ x.toNat % 256 = y.toNat % 256 := by
  rw [← BitVec.toNat_inj, BitVec.extractLsb'_toNat, BitVec.extractLsb'_toNat, Nat.shiftRight_zero,
    Nat.shiftRight_zero]

theorem rxByte_of_read {s : State} {i : Nat} {b : Byte} (h : s.rxbuf.read i = some b) :
    rxByte s i = b := by
  rw [rxByte, h]
  rfl

theorem rxSingle_read {n : BitVec 4} {d : FrameTail} {s : State} (h : responsePending d s = false)
    {j : Nat} (hj : j < min n.toNat 7) :
    (rxSingle n d s).rxbuf.read j = (tailBytes d)[j]? := by
  have hlen : ((tailBytes d).take (min n.toNat 7)).length = min n.toNat 7 := by simp
  simp only [rxSingle, h, Bool.false_eq_true, ↓reduceIte, answer_rxbuf]
  rw [rxDeclare_append_read (by omega), hlen, if_pos hj, List.getElem?_take_of_lt hj]

theorem rxFirst_read {n : BitVec 4} {d : FrameTail} {s : State} {j : Nat}
    (hj : j < min 6 (firstFrameLength n d.d1).toNat) :
    (rxFirst n d s).rxbuf.read j = (tailBytes d)[j + 1]? := by
  have hlen : (((tailBytes d).drop 1).take (min 6 (firstFrameLength n d.d1).toNat)).length =
      min 6 (firstFrameLength n d.d1).toNat := by simp
  simp only [rxFirst, answer_rxbuf]
  rw [rxDeclare_append_read (by omega), hlen, if_pos hj, List.getElem?_take_of_lt hj,
    List.getElem?_drop, Nat.add_comm]

/-- A Consecutive Frame writes the missing bytes, at most 7, from `RXCNT` on (R152). -/
theorem rxConsecutive_read {d : FrameTail} {s : State} (h : s.rxlv = true) (b : Nat) :
    (rxConsecutive d s).rxbuf.read b =
      if s.rxcnt.toNat ≤ b ∧ b < s.rxcnt.toNat + min 7 (s.rxlen.toNat - s.rxcnt.toNat) then
        (tailBytes d)[b - s.rxcnt.toNat]?
      else s.rxbuf.read b := by
  have hcnt := s.rxcnt.isLt
  have hrx := s.rxlen.isLt
  have hlen : ((tailBytes d).take (s.rxlen.toNat - s.rxcnt.toNat)).length =
      min 7 (s.rxlen.toNat - s.rxcnt.toNat) := by
    rw [List.length_take, tailBytes_length, Nat.min_comm]
  rw [rxConsecutive, if_pos h, rxAppendBounded_eq]
  simp only [answer_rxbuf]
  rw [rxAppendAll_read (by omega), hlen]
  split
  · rw [List.getElem?_take_of_lt (by omega)]
  · rfl

theorem firstFrameLength_slices (n : BitVec 12) :
    firstFrameLength (n.extractLsb' 8 4) (n.extractLsb' 0 8) = n := by
  have hn := n.isLt
  apply BitVec.eq_of_toNat_eq
  rw [firstFrameLength_toNat, BitVec.extractLsb'_toNat, BitVec.extractLsb'_toNat,
    Nat.shiftRight_eq_div_pow, Nat.shiftRight_zero]
  omega

/-! ### An unsegmented payload carried over -/

theorem singleSegment_payload {s : State} {j : Nat} (hl : s.txlen.toNat < 8)
    (hj : j < s.txlen.toNat) :
    (tailBytes (singleSegment s).tail)[j]? = some (txByte s j) := by
  have hbyte := segment_payload (header := [singleHeader s.txlen]) (s := s) (a := 0) hj
    (by simp; omega)
  rwa [Nat.zero_add] at hbyte

/-- Byte 1 of an UNSEGMENTED frame is the payload's first byte, or the padding of an empty one. -/
theorem singleSegment_d1 {s : State} (hl : s.txlen.toNat < 8) :
    (singleSegment s).tail.d1 = if s.txlen = 0 then 0xAA else txByte s 0 := by
  have hd1 : (singleSegment s).bytes[1]? = some (singleSegment s).tail.d1 := rfl
  split
  · rename_i hz
    have hpad : (singleSegment s).bytes[1]? = some 0xAA :=
      segment_padding (by simp [hz]) (by decide)
    exact Option.some.inj (hd1.symm.trans hpad)
  · rename_i hz
    have hpos : 0 < s.txlen.toNat := Nat.pos_of_ne_zero fun h => hz (BitVec.eq_of_toNat_eq h)
    exact Option.some.inj (hd1.symm.trans (singleSegment_payload hl hpos))

/-- Settles O58 (R123, R146, R219): byte 1 of the frame is not `NEG_SID`, so the frame is neither
response-pending nor a negative response. -/
theorem unsegmentedPayloadArrives : Obligations.UnsegmentedPayloadArrives := by
  intro a b hs hf hl hb htid hempty hfirst
  let n := a.txlen.extractLsb' 0 4
  have hn : n.toNat = a.txlen.toNat := by
    rw [BitVec.extractLsb'_toNat, Nat.shiftRight_zero]
    omega
  have hneg : (singleSegment a).tail.d1 ≠ b.params.negSid := by
    rw [singleSegment_d1 hl]
    split
    · rename_i hz
      exact (hempty hz).symm
    · rename_i hz
      exact hfirst hz
  have hpend : responsePending (singleSegment a).tail b = false := by
    simp [responsePending, hneg]
  obtain ⟨m, hm⟩ := rxSingle_eq (n := n) hpend
  refine ⟨txSingleFrame a, rxSingle n (singleSegment a).tail b, _, singleSegment a,
    Branch.single.exec_of_selected (by simp) hs ((selectsSingle_iff a).2 ⟨hf, hl⟩), rfl,
    execConsume_single (idMatches_emitted htid) hb, ?_, ?_, fun i hi => rxByte_of_read ?_⟩
  · rw [hm]
    exact if_neg hneg
  · rw [hm]
    apply BitVec.eq_of_toNat_eq
    rw [BitVec.toNat_ofNat]
    omega
  · rw [rxSingle_read hpend (by omega), singleSegment_payload hl hi]

/-! ### Lockstep opened by a First Frame and the flow-control frame back -/

theorem firstSegment_payload {s : State} {j : Nat} (hj : j < 6) :
    (tailBytes (firstSegment s).tail)[j + 1]? = some (txByte s j) := by
  have hbyte := segment_payload (header := firstHeader s.txlen) (s := s) (a := 0) hj
    (by simp [firstHeader]; omega)
  rwa [Nat.zero_add] at hbyte

/-- The receiver `b` after the First Frame of the sender `a`. -/
def firstReceived (a b : State) : State :=
  rxFirst (a.txlen.extractLsb' 8 4) (firstSegment a).tail b

theorem firstSegment_length (s : State) :
    firstFrameLength (s.txlen.extractLsb' 8 4) (firstSegment s).tail.d1 = s.txlen :=
  firstFrameLength_slices s.txlen

/-- The receiver's registers after the First Frame of a segmented payload (R149, R150). -/
theorem firstReceived_eq {a : State} (h8 : 8 ≤ a.txlen.toNat) (b : State) :
    ∃ m : Memory, firstReceived a b = { b with
      rxbuf := m
      rxcnt := 6
      rxlen := a.txlen
      rxlv := true
      state := .sendFlowControl
      result := some ⟨.ok, .none⟩ } := by
  have hmin : min 6 a.txlen.toNat = 6 := by omega
  have hlong : ¬ a.txlen < 6 := Nat.not_lt.2 (Nat.le_trans (by decide) h8)
  obtain ⟨m, hm⟩ := rxFirst_eq (a.txlen.extractLsb' 8 4) (firstSegment a).tail b
  rw [firstSegment_length, hmin, if_neg hlong] at hm
  exact ⟨m, hm⟩

theorem firstReceived_byte {a : State} (h8 : 8 ≤ a.txlen.toNat) (b : State) {i : Nat}
    (hi : i < 6) : rxByte (firstReceived a b) i = txByte a i := by
  refine rxByte_of_read ((rxFirst_read ?_).trans (firstSegment_payload hi))
  rw [firstSegment_length]
  omega

theorem Lockstep.opened {a b : State} (hseg : Machine.segmented a)
    (htid : a.tid.toNat % 256 = b.tid.toNat % 256) :
    Lockstep (rxFlowControl (txFirstFrame a)) (txFlowControl (firstReceived a b)) := by
  have h8 : 8 ≤ a.txlen.toNat := hseg.2
  obtain ⟨m, hm⟩ := firstReceived_eq h8 b
  exact
    { segmented := hseg
      sending := rfl
      begun := show 6#12 ≠ 0 by decide
      unfinished := Nat.lt_of_lt_of_le (show 6 < 8 by decide) h8
      awaiting := rfl
      declared := by rw [hm]; exact ⟨rfl, rfl⟩
      received := by rw [hm]; rfl
      copied := fun i hi => firstReceived_byte h8 b hi
      addressed := by rw [hm]; exact (lowByte_eq_iff _ _).2 htid }

/-- Settles O59 (R124, R130, R149, R154): each of the four commands meets the condition of its branch
in the state the one before it leaves. -/
theorem firstFrameAndFlowControlOpenLockstep :
    Obligations.FirstFrameAndFlowControlOpenLockstep := by
  intro a b hs hseg hp hb htid
  have h8 : 8 ≤ a.txlen.toNat := hseg.2
  obtain ⟨m, hm⟩ := firstReceived_eq h8 b
  have hback : (firstReceived a b).tid.toNat % 256 = a.tid.toNat % 256 := by
    rw [hm]
    exact htid.symm
  exact ⟨txFirstFrame a, firstReceived a b, txFlowControl (firstReceived a b),
    rxFlowControl (txFirstFrame a), _, _, firstSegment a, flowControlFrame,
    Branch.first.exec_of_selected (by simp) hs ((selectsFirst_iff a).2 ⟨hseg.1, h8, hp⟩), rfl,
    execConsume_first (idMatches_emitted htid) hb,
    exec_produceFc_of_due (by simp) (by rw [hm]), rfl,
    execConsume_flowControl (n := 0) (idMatches_emitted hback) rfl, .opened hseg htid⟩

/-! ### Lockstep kept by every Consecutive Frame -/

theorem nextSegment_payload {s : State} {j : Nat} (h : j < min 7 (s.txlen.toNat - s.txprog.toNat)) :
    (tailBytes (nextSegment s).tail)[j]? = some (txByte s (s.txprog.toNat + j)) :=
  segment_payload (header := [consecutiveHeader s.seq]) h (by simp; omega)

section
variable {a b : State} (h : Lockstep a b)
include h

/-- In lockstep the carried frame is a Consecutive Frame and both blocks take it (R125, R152). -/
theorem Lockstep.carrySegment_eq :
    carrySegment (a, b) = (txConsecutiveFrame a, rxConsecutive (nextSegment a).tail b) := by
  have hsel : selectsConsecutive a = true :=
    (selectsConsecutive_iff a).2 ⟨h.segmented.1, h.segmented.2, h.begun, h.unfinished⟩
  have hsend : exec .produceNext a = .next (txConsecutiveFrame a) :=
    Branch.consecutive.exec_of_selected (by simp) (.inr h.sending) hsel
  have hresult : (txConsecutiveFrame a).result =
      some ⟨.ok, .frame (encodeStandard (a.tid.setWidth 32)) 0 (nextSegment a)⟩ := rfl
  have hreceive : exec (.consume (encodeStandard (a.tid.setWidth 32)) (nextSegment a)) b =
      .next (rxConsecutive (nextSegment a).tail b) :=
    execConsume_consecutive (idMatches_emitted ((lowByte_eq_iff _ _).1 h.addressed)) h.awaiting
  simp only [carrySegment, hsend, hresult, hreceive]

theorem Lockstep.progress_toNat : (txConsecutiveFrame a).txprog.toNat =
    a.txprog.toNat + min 7 (a.txlen.toNat - a.txprog.toNat) :=
  txConsecutiveFrame_txprog_toNat (BitVec.le_of_lt h.unfinished)

/-- The receiver's registers after a carried segment, by the sender's progress. -/
theorem Lockstep.rxConsecutive_eq (d : FrameTail) :
    ∃ m : Memory, rxConsecutive d b = { b with
      rxbuf := m
      rxcnt := (txConsecutiveFrame a).txprog
      state := if (txConsecutiveFrame a).txprog = a.txlen then .completed else b.state
      result := some ⟨.ok, .none⟩ } := by
  obtain ⟨m, n, hn, hm⟩ := Machine.rxConsecutive_eq (d := d) h.declared.1
  have hprog : n = (txConsecutiveFrame a).txprog := by
    rw [hn, h.received, h.declared.2, Nat.min_comm]
    rfl
  rw [hprog] at hm
  exact ⟨m, by rw [hm, h.declared.2]⟩

theorem Lockstep.copied_next {i : Nat} (hi : i < (txConsecutiveFrame a).txprog.toNat) :
    rxByte (rxConsecutive (nextSegment a).tail b) i = txByte a i := by
  rw [h.progress_toNat] at hi
  have hread := rxConsecutive_read (d := (nextSegment a).tail) h.declared.1 i
  rw [h.received, h.declared.2] at hread
  by_cases hold : i < a.txprog.toNat
  · rw [if_neg (by omega)] at hread
    rw [rxByte, hread]
    exact h.copied i hold
  · rw [if_pos (by omega), nextSegment_payload (by omega),
      Nat.add_sub_cancel' (Nat.le_of_not_lt hold)] at hread
    exact rxByte_of_read hread

/-- A segment that does not end the payload leaves the two in lockstep. -/
theorem Lockstep.next (hlt : (txConsecutiveFrame a).txprog < a.txlen) :
    Lockstep (txConsecutiveFrame a) (rxConsecutive (nextSegment a).tail b) := by
  obtain ⟨m, hm⟩ := h.rxConsecutive_eq (nextSegment a).tail
  have hne : (txConsecutiveFrame a).txprog ≠ a.txlen := BitVec.ne_of_lt hlt
  rw [if_neg hne] at hm
  exact
    { segmented := h.segmented
      sending := (if_neg hne).trans h.sending
      begun := fun hzero => by
        have hpos := h.progress_toNat
        rw [hzero] at hpos
        exact h.begun (BitVec.eq_of_toNat_eq (Nat.eq_zero_of_add_eq_zero_right hpos.symm))
      unfinished := hlt
      awaiting := by rw [hm]; exact h.awaiting
      declared := by rw [hm]; exact h.declared
      received := by rw [hm]
      copied := fun i hi => h.copied_next hi
      addressed := by rw [hm]; exact h.addressed }

end

/-- The whole payload of `a` has gone from the first block of a pair to the second. -/
def Delivered (a : State) (p : State × State) : Prop :=
  p.1.txprog = a.txlen ∧ p.2.state = .completed ∧ p.2.rxcnt = a.txlen ∧
    ∀ i < a.txlen.toNat, rxByte p.2 i = txByte a i

/-- A segment that ends the payload delivers it. -/
theorem Lockstep.delivered {a b : State} (h : Lockstep a b)
    (hend : (txConsecutiveFrame a).txprog = a.txlen) : Delivered a (carrySegment (a, b)) := by
  obtain ⟨m, hm⟩ := h.rxConsecutive_eq (nextSegment a).tail
  rw [h.carrySegment_eq]
  refine ⟨hend, ?_, ?_, fun i hi => h.copied_next (by rwa [hend])⟩
  · rw [hm]
    exact if_pos hend
  · rw [hm]
    exact hend

/-- `k` segments suffice for up to `7 * k` bytes. -/
theorem Lockstep.exists_delivered {k : Nat} {a b : State} (h : Lockstep a b)
    (hk : a.txlen.toNat - a.txprog.toNat ≤ 7 * k) :
    ∃ n ≤ k, Delivered a (carrySegments n (a, b)) := by
  have hlt : a.txprog.toNat < a.txlen.toNat := h.unfinished
  induction k generalizing a b with
  | zero => omega
  | succ k ih =>
    have hprog := h.progress_toNat
    by_cases hend : (txConsecutiveFrame a).txprog = a.txlen
    · exact ⟨1, by omega, h.delivered hend⟩
    · have hne := mt BitVec.eq_of_toNat_eq hend
      have hlt' : (txConsecutiveFrame a).txprog.toNat < a.txlen.toNat := by omega
      have hlen : (txConsecutiveFrame a).txlen = a.txlen := rfl
      obtain ⟨n, hn, hdel⟩ := ih (h.next hlt') (by rw [hlen]; omega) hlt'
      refine ⟨n + 1, by omega, ?_⟩
      rw [carrySegments, h.carrySegment_eq]
      exact hdel

/-- Settles O60 (R125, R152): each carried segment but the last keeps the lockstep and moves 7 bytes. -/
theorem segmentedPayloadArrives : Obligations.SegmentedPayloadArrives := by
  intro a b h
  obtain ⟨n, hn, hdel⟩ := h.exists_delivered
    (k := (a.txlen.toNat - a.txprog.toNat + 6) / 7) (by omega)
  refine ⟨n, hn, fun a' b' hab => ?_⟩
  rw [hab] at hdel
  exact hdel

end Sys2Proof.Machine
end

section
/-! ## Inbound consumption (42_inbound_consumption.md R140 to R159)

A frame meets one gate (`frameGate`) and has one effect behind it (`frameEffect`). CONSUME and the row of the
frame's kind are both that effect behind that gate (`exec_received`), so each claim about the two is a
claim about the gate or about the effect. -/

namespace Sys2Proof.Machine

/-! ### The gate and the effect of a frame -/

/-- Whether the block applies a frame with PCI `p`: the identifier matches (R142), and the engine awaits
a reply, or a flow control that this frame is (R143). -/
def frameGate (rxid : Word) (p : BitVec 4) (s : State) : Bool :=
  idMatches rxid s &&
    (s.state == .awaitingReply || s.state == .awaitingFlowControl && p == 0x3#4)

/-- What a frame does behind the gate (R144, R156). -/
def frameEffect (d : Frame) (s : State) : State :=
  if d.pci = 0x0#4 then rxSingle d.nibble d.tail s
  else if d.pci = 0x1#4 then rxFirst d.nibble d.tail s
  else if d.pci = 0x2#4 then rxConsecutive d.tail s
  else if d.pci = 0x3#4 then rxFlowControl s
  else ignoreFrame s

theorem frameGate_iff (rxid : Word) (p : BitVec 4) (s : State) :
    frameGate rxid p s = true ↔ rxid.toNat % 256 = s.tid.toNat % 256 ∧
      (s.state = .awaitingReply ∨ s.state = .awaitingFlowControl ∧ p = 0x3#4) := by
  simp only [frameGate, Bool.and_eq_true, Bool.or_eq_true, beq_iff_eq, idMatches_iff]

theorem frameGate_of_awaitingReply {rxid : Word} {s : State}
    (hid : rxid.toNat % 256 = s.tid.toNat % 256) (hs : s.state = .awaitingReply) (p : BitVec 4) :
    frameGate rxid p s = true :=
  (frameGate_iff rxid p s).2 ⟨hid, .inl hs⟩

theorem frameGate_congr {rxid other : Word} (h : rxid.toNat % 256 = other.toNat % 256) (p : BitVec 4)
    (s : State) : frameGate rxid p s = frameGate other p s := by
  rw [Bool.eq_iff_iff, frameGate_iff, frameGate_iff, h]

theorem replyGate_eq_frameGate (rxid : Word) {p : BitVec 4} (h : p ≠ 0x3#4) (s : State) :
    replyGate rxid s = frameGate rxid p s := by
  simp [replyGate, frameGate, beq_eq_false_iff_ne.2 h]

theorem frameEffect_single (n : BitVec 4) (t : FrameTail) (s : State) :
    frameEffect ⟨0x0#4 ++ n, t⟩ s = rxSingle n t s := by
  simp [frameEffect]

theorem frameEffect_first (n : BitVec 4) (t : FrameTail) (s : State) :
    frameEffect ⟨0x1#4 ++ n, t⟩ s = rxFirst n t s := by
  simp [frameEffect]

theorem frameEffect_consecutive (n : BitVec 4) (t : FrameTail) (s : State) :
    frameEffect ⟨0x2#4 ++ n, t⟩ s = rxConsecutive t s := by
  simp [frameEffect]

theorem frameEffect_flowControl (n : BitVec 4) (t : FrameTail) (s : State) :
    frameEffect ⟨0x3#4 ++ n, t⟩ s = rxFlowControl s := by
  simp [frameEffect]

theorem frameEffect_reserved {d : Frame} (h : 4 ≤ d.pci.toNat) (s : State) :
    frameEffect d s = ignoreFrame s := by
  have hne : ∀ p : BitVec 4, p.toNat < 4 → d.pci ≠ p := fun p hp he => by
    rw [he] at h
    omega
  rw [frameEffect, if_neg (hne _ (by decide)), if_neg (hne _ (by decide)),
    if_neg (hne _ (by decide)), if_neg (hne _ (by decide))]

/-! ### CONSUME and the rows of the received kinds -/

/-- CONSUME tests for an awaited flow control first, and then for `AWAITING_REPLY` (R140): together
these are the gate. -/
theorem exec_consume (rxid : Word) (d : Frame) (s : State) :
    exec (.consume rxid d) s =
      .next (if frameGate rxid d.pci s then frameEffect d s else ignoreFrame s) := by
  rw [exec, execConsume]
  cases hm : idMatches rxid s with
  | false => simp [frameGate, hm]
  | true =>
    by_cases hfc : s.state = .awaitingFlowControl ∧ d.pci = 0x3#4
    · simp [frameGate, frameEffect, hm, hfc]
    by_cases hs : s.state = .awaitingReply
    · simp only [frameGate, frameEffect, hm, hs, apply_ite Host.Outcome.next]
      rfl
    · simp [frameGate, hm, hfc, hs]

/-- Every received frame is of one of the four kinds or reserved (R79). -/
theorem frame_kinds (d : Frame) :
    d = ⟨0x0#4 ++ d.nibble, d.tail⟩ ∨ d = ⟨0x1#4 ++ d.nibble, d.tail⟩ ∨
      d = ⟨0x2#4 ++ d.nibble, d.tail⟩ ∨ d = ⟨0x3#4 ++ d.nibble, d.tail⟩ ∨ 4 ≤ d.pci.toNat := by
  have hpci : ∀ p : BitVec 4, p = 0x0#4 ∨ p = 0x1#4 ∨ p = 0x2#4 ∨ p = 0x3#4 ∨ 4 ≤ p.toNat := by
    decide
  have hd := frame_eq d
  obtain h | h | h | h | h := hpci d.pci
  · exact .inl (by rwa [h] at hd)
  · exact .inr (.inl (by rwa [h] at hd))
  · exact .inr (.inr (.inl (by rwa [h] at hd)))
  · exact .inr (.inr (.inr (.inl (by rwa [h] at hd))))
  · exact .inr (.inr (.inr (.inr h)))

theorem exec_rxSf (rxid : Word) (n : BitVec 4) (t : FrameTail) (s : State) :
    exec (.rxSf rxid n t) s =
      .next (if frameGate rxid 0x0#4 s then rxSingle n t s else ignoreFrame s) := by
  rw [← replyGate_eq_frameGate rxid (by decide)]
  rfl

theorem exec_rxFf (rxid : Word) (n : BitVec 4) (t : FrameTail) (s : State) :
    exec (.rxFf rxid n t) s =
      .next (if frameGate rxid 0x1#4 s then rxFirst n t s else ignoreFrame s) := by
  rw [← replyGate_eq_frameGate rxid (by decide)]
  rfl

theorem exec_rxCf (rxid : Word) (n : BitVec 4) (t : FrameTail) (s : State) :
    exec (.rxCf rxid n t) s =
      .next (if frameGate rxid 0x2#4 s then rxConsecutive t s else ignoreFrame s) := by
  rw [← replyGate_eq_frameGate rxid (by decide)]
  rfl

theorem exec_rxFc (rxid : Word) (n : BitVec 4) (t : FrameTail) (s : State) :
    exec (.rxFc rxid n t) s =
      .next (if frameGate rxid 0x3#4 s then rxFlowControl s else ignoreFrame s) := by
  simp [exec, execRxFc, frameGate]

theorem exec_decodeFrame (rxid : Word) (d : Frame) (s : State) :
    exec (decodeFrame rxid d) s =
      .next (if frameGate rxid d.pci s then frameEffect d s else ignoreFrame s) := by
  obtain h | h | h | h | h := frame_kinds d
  · rw [h, decodeFrame_single, pci_append, frameEffect_single, exec_rxSf]
  · rw [h, decodeFrame_first, pci_append, frameEffect_first, exec_rxFf]
  · rw [h, decodeFrame_consecutive, pci_append, frameEffect_consecutive, exec_rxCf]
  · rw [h, decodeFrame_flowControl, pci_append, frameEffect_flowControl, exec_rxFc]
  · rw [frameEffect_reserved h, ite_self]
    obtain ⟨low, hrow⟩ | ⟨low, hrow⟩ := decodeFrame_reserved rxid h <;> rw [hrow] <;> rfl

/-- Settles O21 (R144, R79): both sides are the frame's effect behind the gate. -/
theorem consumeRunsTheFramesKind : Obligations.ConsumeRunsTheFramesKind :=
  fun rxid d s => (exec_consume rxid d s).trans (exec_decodeFrame rxid d s).symm

/-- A row of a kind, and CONSUME of the frame it stands for. -/
theorem exec_received {rxid : Word} {p n : BitVec 4} {t : FrameTail} {row i : Instr}
    (hrow : decodeFrame rxid ⟨p ++ n, t⟩ = row) (hi : i ∈ [row, .consume rxid ⟨p ++ n, t⟩])
    (s : State) :
    exec i s =
      .next (if frameGate rxid p s then frameEffect ⟨p ++ n, t⟩ s else ignoreFrame s) := by
  obtain rfl | rfl : i = row ∨ i = .consume rxid ⟨p ++ n, t⟩ := by simpa using hi
  · rw [← hrow, exec_decodeFrame, pci_append]
  · rw [exec_consume, pci_append]

/-! ### Frames that have no effect -/

/-- Settles O19 (R142): the gate is shut to the identifier, whatever the kind. -/
theorem otherIdentifiersAreIgnored : Obligations.OtherIdentifiersAreIgnored := by
  intro rxid s hid
  have hshut : ∀ p, ¬ frameGate rxid p s = true := fun p ha => hid ((frameGate_iff rxid p s).1 ha).1
  refine ⟨fun d => by rw [exec_consume, if_neg (hshut _)]; rfl, fun n t i hi => ?_⟩
  obtain rfl | rfl | rfl | rfl :
      i = .rxSf rxid n t ∨ i = .rxFf rxid n t ∨ i = .rxCf rxid n t ∨ i = .rxFc rxid n t := by
    simpa using hi
  · rw [exec_rxSf, if_neg (hshut _)]; rfl
  · rw [exec_rxFf, if_neg (hshut _)]; rfl
  · rw [exec_rxCf, if_neg (hshut _)]; rfl
  · rw [exec_rxFc, if_neg (hshut _)]; rfl

/-- Settles O20 (R143): outside `AWAITING_REPLY` the gate is shut but to an awaited flow control. -/
theorem framesOutsideTheGateAreIgnored : Obligations.FramesOutsideTheGateAreIgnored := by
  intro rxid s hs
  have hshut : ∀ p, ¬ (s.state = .awaitingFlowControl ∧ p = 0x3#4) → ¬ frameGate rxid p s = true :=
    fun p hp ha => ((frameGate_iff rxid p s).1 ha).2.elim hs hp
  refine ⟨fun d hd => ?_, fun n t i hi => ?_, fun hfc n t => ?_⟩
  · rw [← pci_eq_iff d (by decide)] at hd
    rw [exec_consume, if_neg (hshut _ hd)]
    rfl
  · obtain rfl | rfl | rfl : i = .rxSf rxid n t ∨ i = .rxFf rxid n t ∨ i = .rxCf rxid n t := by
      simpa using hi
    · rw [exec_rxSf, if_neg (hshut _ (by simp))]; rfl
    · rw [exec_rxFf, if_neg (hshut _ (by simp))]; rfl
    · rw [exec_rxCf, if_neg (hshut _ (by simp))]; rfl
  · rw [exec_rxFc, if_neg (hshut _ fun h => hfc h.1)]
    rfl

/-- Settles O28 (R156): a frame of a reserved kind is ignored behind the gate too. -/
theorem reservedKindsAreIgnored : Obligations.ReservedKindsAreIgnored := by
  refine fun rxid t s => ⟨fun d hd => ?_, fun _ => rfl, fun _ => rfl⟩
  rw [← pci_toNat] at hd
  rw [exec_consume, frameEffect_reserved hd, ite_self]
  rfl

theorem rxConsecutive_of_no_length {t : FrameTail} {s : State} (h : ¬ s.rxlv = true) :
    rxConsecutive t s = ignoreFrame s :=
  if_neg h

/-- Settles O25 (R151): with no length declared a Consecutive Frame is ignored behind the gate too. -/
theorem consecutiveFrameNeedsALength : Obligations.ConsecutiveFrameNeedsALength := by
  intro rxid sn t s hlv i hi
  rw [exec_received (decodeFrame_consecutive rxid sn t) hi, frameEffect_consecutive,
    rxConsecutive_of_no_length (by simp [hlv]), ite_self]
  rfl

theorem rxSingle_of_pending {n : BitVec 4} {t : FrameTail} {s : State}
    (h : responsePending t s = true) : rxSingle n t s = answer .pending .none s :=
  if_pos h

theorem responsePending_iff (t : FrameTail) (s : State) :
    responsePending t s = true ↔
      t.d1 = s.params.negSid ∧ nrcByte s.params.nrcIndex t = s.params.nrcPending := by
  simp only [responsePending, Bool.and_eq_true, beq_iff_eq]

/-- Settles O22 (R145): the pattern is looked for before anything is written. -/
theorem responsePendingChangesNothing : Obligations.ResponsePendingChangesNothing := by
  intro rxid n t s hid hs hneg hnrc i hi
  rw [exec_received (decodeFrame_single rxid n t) hi, if_pos (frameGate_of_awaitingReply hid hs _),
    frameEffect_single, rxSingle_of_pending ((responsePending_iff t s).2 ⟨hneg, hnrc⟩)]
  rfl

/-! ### Frames that change the transfer -/

theorem rxSingle_read_of_le {n : BitVec 4} {t : FrameTail} {s : State}
    (h : responsePending t s = false) {a : Nat} (ha : min n.toNat 7 ≤ a) :
    (rxSingle n t s).rxbuf.read a = s.rxbuf.read a := by
  have hlen : ((tailBytes t).take (min n.toNat 7)).length = min n.toNat 7 := by simp
  simp only [rxSingle, h, Bool.false_eq_true, ↓reduceIte, answer_rxbuf]
  rw [rxDeclare_append_read (by omega), hlen, if_neg (by omega)]

theorem rxFirst_read_of_le {n : BitVec 4} {t : FrameTail} {s : State} {a : Nat}
    (ha : min 6 (firstFrameLength n t.d1).toNat ≤ a) :
    (rxFirst n t s).rxbuf.read a = s.rxbuf.read a := by
  have hlen : (((tailBytes t).drop 1).take (min 6 (firstFrameLength n t.d1).toNat)).length =
      min 6 (firstFrameLength n t.d1).toNat := by simp
  simp only [rxFirst, answer_rxbuf]
  rw [rxDeclare_append_read (by omega), hlen, if_neg (by omega)]

/-- Settles O23 (R146, R147): the registers by `rxSingle_eq`, the bytes below and above the count by the
two read lemmas. -/
theorem unsegmentedReplyEndsTheTransfer : Obligations.UnsegmentedReplyEndsTheTransfer := by
  intro rxid n t s hid hs hpend i hi
  rw [← responsePending_iff, Bool.not_eq_true] at hpend
  obtain ⟨m, hm⟩ := rxSingle_eq (n := n) hpend
  refine ⟨rxSingle n t s, ?_, by rw [hm], fun j hj => rxSingle_read hpend hj,
    fun a ha => rxSingle_read_of_le hpend ha⟩
  rw [exec_received (decodeFrame_single rxid n t) hi, if_pos (frameGate_of_awaitingReply hid hs _),
    frameEffect_single]

/-- Settles O24 (R148, R149, R150): as O23, with `rxFirst`, which writes from byte 2 on. -/
theorem firstFrameOpensReassembly : Obligations.FirstFrameOpensReassembly := by
  intro rxid n t s hid hs i hi
  obtain ⟨m, hm⟩ := rxFirst_eq n t s
  refine ⟨rxFirst n t s, firstFrameLength n t.d1, firstFrameLength_toNat n t.d1, ?_, by rw [hm]; rfl,
    fun j hj => rxFirst_read hj, fun a ha => rxFirst_read_of_le ha⟩
  rw [exec_received (decodeFrame_first rxid n t) hi, if_pos (frameGate_of_awaitingReply hid hs _),
    frameEffect_first]

/-- Settles O26 (R152): the frame appends the missing bytes, at most 7, so `RXCNT` does not wrap. -/
theorem consecutiveFrameAppendsUpToTheLength :
    Obligations.ConsecutiveFrameAppendsUpToTheLength := by
  intro rxid sn t s hid hs hlv i hi
  obtain ⟨m, count, hcount, hm⟩ := rxConsecutive_eq (d := t) hlv
  refine ⟨rxConsecutive t s, count, ?_, ?_, by rw [hm, hs], fun j hj => ?_, fun a ha => ?_⟩
  · have hcnt := s.rxcnt.isLt
    have hlen := s.rxlen.isLt
    rw [hcount, BitVec.toNat_add, BitVec.toNat_ofNat]
    omega
  · rw [exec_received (decodeFrame_consecutive rxid sn t) hi,
      if_pos (frameGate_of_awaitingReply hid hs _), frameEffect_consecutive]
  · rw [rxConsecutive_read hlv, if_pos (by omega), Nat.add_sub_cancel_left]
  · rw [rxConsecutive_read hlv, if_neg (by omega)]

/-- Settles O27 (R154): an awaited reply and an awaited flow control both open the gate. -/
theorem flowControlResumesSending : Obligations.FlowControlResumesSending := by
  intro rxid fs t s hid hs i hi
  rw [exec_received (decodeFrame_flowControl rxid fs t) hi,
    if_pos ((frameGate_iff _ _ _).2 ⟨hid, hs.imp_right fun h => ⟨h, rfl⟩⟩), frameEffect_flowControl]
  rfl

/-! ### What does not matter to a received frame -/

/-- Settles O29 (R153, R155): the gate and the effects do not take the unchecked fields. -/
theorem uncheckedFrameFieldsDoNotMatter : Obligations.UncheckedFrameFieldsDoNotMatter := by
  refine fun rxid n m t other s => ⟨?_, rfl, ?_, rfl⟩
  · simp only [exec_consume, pci_append, frameEffect_consecutive]
  · simp only [exec_consume, pci_append, frameEffect_flowControl]

/-- Settles O30 (R141, R142): the identifier meets the gate alone. -/
theorem onlyTheLowIdentifierByteMatters : Obligations.OnlyTheLowIdentifierByteMatters := by
  intro rxid other d s h
  rw [exec_consume, exec_consume, frameGate_congr h]

theorem rxAppendAll_fcen_update (l : List Byte) (s : State) (f : Bool) :
    rxAppendAll l { s with fcen := f } = { rxAppendAll l s with fcen := f } := by
  induction l generalizing s with
  | nil => rfl
  | cons v l ih => exact ih (rxAppend v s)

/-- A declaration and its appends carry `FCEN` along. -/
theorem rxDeclare_append_fcen_update (len : BitVec 12) (l : List Byte) (s : State) (f : Bool) :
    rxAppendAll l (rxDeclare len { s with fcen := f }) =
      { rxAppendAll l (rxDeclare len s) with fcen := f } :=
  rxAppendAll_fcen_update l (rxDeclare len s) f

theorem rxSingle_fcen_update (n : BitVec 4) (t : FrameTail) (s : State) (f : Bool) :
    rxSingle n t { s with fcen := f } = { rxSingle n t s with fcen := f } := by
  have hpend : responsePending t { s with fcen := f } = responsePending t s := rfl
  rw [rxSingle, rxSingle, hpend, rxDeclare_append_fcen_update]
  split <;> rfl

theorem rxFirst_fcen_update (n : BitVec 4) (t : FrameTail) (s : State) (f : Bool) :
    rxFirst n t { s with fcen := f } = { rxFirst n t s with fcen := f } := by
  rw [rxFirst, rxFirst, rxDeclare_append_fcen_update]
  rfl

theorem rxConsecutive_fcen_update (t : FrameTail) (s : State) (f : Bool) :
    rxConsecutive t { s with fcen := f } = { rxConsecutive t s with fcen := f } := by
  rw [rxConsecutive, rxConsecutive, rxAppendBounded_eq, rxAppendAll_fcen_update, rxAppendBounded_eq]
  split <;> rfl

theorem frameEffect_fcen_update (d : Frame) (s : State) (f : Bool) :
    frameEffect d { s with fcen := f } = { frameEffect d s with fcen := f } := by
  unfold frameEffect
  split_ifs
  · exact rxSingle_fcen_update _ _ s f
  · exact rxFirst_fcen_update _ _ s f
  · exact rxConsecutive_fcen_update _ s f
  · rfl
  · rfl

/-- Settles O31 (R159): the gate does not read `FCEN`, and every effect carries it along. -/
theorem consumeDoesNotDependOnFlowControlSetting :
    Obligations.ConsumeDoesNotDependOnFlowControlSetting := by
  refine fun rxid d s f => ⟨_, exec_consume rxid d s, ?_⟩
  have hgate : frameGate rxid d.pci { s with fcen := f } = frameGate rxid d.pci s := rfl
  rw [exec_consume, hgate, frameEffect_fcen_update]
  split <;> rfl

/-- `t` differs from `s` in nothing but the registers R140 lets CONSUME write, and the result. -/
def WritesReceiveSide (s t : State) : Prop :=
  t = { s with
    state := t.state
    rxcnt := t.rxcnt
    rxlen := t.rxlen
    rxlv := t.rxlv
    rxbuf := t.rxbuf
    result := t.result }

theorem rxSingle_writes (n : BitVec 4) (t : FrameTail) (s : State) :
    WritesReceiveSide s (rxSingle n t s) := by
  cases hpend : responsePending t s with
  | true =>
    rw [rxSingle_of_pending hpend]
    rfl
  | false =>
    obtain ⟨m, hm⟩ := rxSingle_eq (n := n) hpend
    rw [hm]
    rfl

theorem rxFirst_writes (n : BitVec 4) (t : FrameTail) (s : State) :
    WritesReceiveSide s (rxFirst n t s) := by
  obtain ⟨m, hm⟩ := rxFirst_eq n t s
  rw [hm]
  rfl

theorem rxConsecutive_writes (t : FrameTail) (s : State) :
    WritesReceiveSide s (rxConsecutive t s) := by
  by_cases hlv : s.rxlv = true
  · obtain ⟨m, n, -, hm⟩ := rxConsecutive_eq (d := t) hlv
    rw [hm]
    rfl
  · rw [rxConsecutive_of_no_length hlv]
    rfl

theorem frameEffect_writes (d : Frame) (s : State) : WritesReceiveSide s (frameEffect d s) := by
  unfold frameEffect
  split_ifs
  · exact rxSingle_writes _ _ s
  · exact rxFirst_writes _ _ s
  · exact rxConsecutive_writes _ s
  · rfl
  · rfl

/-- Settles O32 (R140): each effect keeps to the receive side, and an ignored frame to the result. -/
theorem consumeWritesOnlyTheReceiveSide : Obligations.ConsumeWritesOnlyTheReceiveSide := by
  refine fun rxid d s => ⟨_, exec_consume rxid d s, ?_⟩
  split
  · exact frameEffect_writes d s
  · rfl

/-- A command's result has one of the two statuses of an effect, or the result is all that changed. -/
theorem Effect.status_or_unchanged {i : Instr} {s t : State} (he : Effect i s t) :
    (∃ f, t.result = some ⟨.ok, f⟩ ∨ t.result = some ⟨.nothingToSend, f⟩) ∨
      t = { s with result := t.result } := by
  cases he with
  | quiet => exact .inr rfl
  | nothing => exact .inl ⟨_, .inr rfl⟩
  | raw | single | first | consecutive | flowControl | rxFirst | rxFlowControl =>
    exact .inl ⟨_, .inl rfl⟩
  | load tidin a f p t hi ht hload =>
    rw [execLoad, if_neg (BitVec.not_le.2 ht)] at hload
    cases hload
    exact .inl ⟨_, .inl rfl⟩
  | rxSingle rxid n d =>
    unfold Machine.rxSingle
    split
    · exact .inr rfl
    · exact .inl ⟨_, .inl rfl⟩
  | rxConsecutive rxid n d =>
    unfold Machine.rxConsecutive
    split
    · exact .inl ⟨_, .inl rfl⟩
    · exact .inr rfl

/-- Settles O42 (R157, R191): of a command's effects only the quiet ones answer another status. -/
theorem otherStatusesMeanNoEffect : Obligations.OtherStatusesMeanNoEffect := by
  intro i s t r h hr hok hnothing
  obtain ⟨f, hf | hf⟩ | ht := (exec_effect h).status_or_unchanged
  · cases hr.symm.trans hf
    exact absurd rfl hok
  · cases hr.symm.trans hf
    exact absurd rfl hnothing
  · rwa [hr] at ht

end Sys2Proof.Machine
end

section
/-! ## Host commands (43_host_commands.md R170 to R176)

LOAD's write of a payload is compared with R170's loop through what the two read at every index, which
is all a canonical buffer holds (`memory_ext`). -/

namespace Sys2Proof.Machine

/-! ### The loop of R170 -/

/-- The first `n` turns of R170's loop: byte `i` of the payload is written at index `i`, for `i = 0, 1, ...`. -/
def writeBytes (p : List Byte) (n : Nat) (m : Memory) : Memory :=
  (List.range n).foldl (fun b i => b.write i (p.getD i 0)) m

theorem writeBytes_succ (p : List Byte) (n : Nat) (m : Memory) :
    writeBytes p (n + 1) m = (writeBytes p n m).write n (p.getD n 0) := by
  simp [writeBytes, List.range_succ]

/-- After `n` turns the first `n` indices read the payload; the others are as before. -/
theorem read_writeBytes {p : List Byte} {n : Nat} (hn : n ≤ p.length) (m : Memory) (b : Nat) :
    (writeBytes p n m).read b = if b < n then p[b]? else m.read b := by
  induction n with
  | zero => rfl
  | succ n ih =>
    rw [writeBytes_succ, read_write, ih (by omega)]
    by_cases hb : n = b
    · subst hb
      have hp : n < p.length := hn
      simp [hp]
    · have hiff : b < n + 1 ↔ b < n := by omega
      rw [if_neg hb, if_congr hiff rfl rfl]

theorem writeBytes_wf {cap n : Nat} (hn : n ≤ cap) (p : List Byte) {m : Memory} (h : m.wf cap) :
    (writeBytes p n m).wf cap := by
  induction n with
  | zero => exact h
  | succ n ih =>
    rw [writeBytes_succ]
    exact write_wf (ih (by omega)) hn _

/-- Settles O35 (R170, R58): the two buffers are canonical and read the same at every index. -/
theorem payloadWriteIsTheLoopOfByteWrites : Obligations.PayloadWriteIsTheLoopOfByteWrites :=
  fun m p hm hp =>
    memory_ext (writePayload_wf hm hp) (writeBytes_wf hp p hm) fun b =>
      (read_writePayload m p b).trans (read_writeBytes (Nat.le_refl _) m b).symm

/-! ### LOAD on either side of `0x800` (R170, R172) -/

theorem execLoad_of_extended {tidin : Word} (h : 0x800 ≤ tidin.toNat) (a f : Bool) (p : List Byte)
    (s : State) : execLoad tidin a f p s = .next (answer .badArg .none s) :=
  if_pos (show Config.STD_LIMIT ≤ tidin from BitVec.le_def.2 h)

/-- Everything LOAD of a standard identifier writes when its payload's length fits 12 bits (R170, R171). -/
theorem execLoad_of_standard {tidin : Word} (h : tidin.toNat < 0x800) (a f : Bool) {p : List Byte}
    (hp : p.length ≤ 4095) (s : State) :
    execLoad tidin a f p s = .next { s with
      tid := tidin.setWidth 11
      txlen := BitVec.ofNat 12 p.length
      txbuf := s.txbuf.writePayload p
      await := a
      fcen := f
      state := .ready
      txprog := 0
      seq := 0
      rxcnt := 0
      rxlen := 0
      rxlv := false
      result := some ⟨.ok, .none⟩ } := by
  have hstd : ¬ Config.STD_LIMIT ≤ tidin := BitVec.not_le.2 (BitVec.lt_def.2 h)
  have htid : tidin.extractLsb' 0 11 = tidin.setWidth 11 :=
    (BitVec.setWidth_eq_extractLsb' (by decide)).symm
  have hlen : (BitVec.ofNat 12 p.length).toNat = p.length := by
    rw [BitVec.toNat_ofNat]
    omega
  rw [execLoad, if_neg hstd]
  simp only [htid, hlen, List.take_length]
  rfl

/-- Settles O34 (R170, R171, R176): `STATE` is not asked, and the payload is read back from the
buffer it was written to. -/
theorem loadStartsANewTransfer : Obligations.LoadStartsANewTransfer :=
  fun _ a f p s ht hp =>
    ⟨_, execLoad_of_standard ht a f hp s, rfl, read_writePayload s.txbuf p⟩

/-- Settles O36 (R172). -/
theorem loadRefusesExtendedIdentifiers : Obligations.LoadRefusesExtendedIdentifiers :=
  fun _ a f p s h => execLoad_of_extended h a f p s

/-! ### The reads (R173, R174) -/

/-- Settles O37 (R173, R26): the record is the registers', each of the seven states by its code. -/
theorem readStatusAnswersEveryRegister : Obligations.ReadStatusAnswersEveryRegister := by
  intro s
  have hbit : ∀ b : Bool, BitVec.ofBool b = 1 ↔ b = true :=
    fun _ => BitVec.ofBool_eq_iff_eq (b' := true)
  refine ⟨statusRecord s, rfl, ?_, rfl, rfl, rfl, rfl, rfl, rfl, hbit _, hbit _, hbit _⟩
  rw [statusRecord]
  cases s.state <;> rfl

/-- Settles O38 (R174, R56): a byte that `RXBUF` holds is the byte answered. -/
theorem readRxAnswersHeldBytesOnly : Obligations.ReadRxAnswersHeldBytesOnly :=
  fun j s =>
    ⟨fun h => execReadRx_of_le (BitVec.le_def.2 h), fun h =>
      ⟨rxByte s j.toNat, execReadRx_of_lt (BitVec.lt_def.2 h), fun _ hv => rxByte_of_read hv⟩⟩

/-! ### Illegal headers (R175) -/

/-- A step with an illegal header before it takes the transaction and answers `ILLEGAL`. -/
theorem step_of_port_illegal {s : State} {c : Command} {rest : List Input}
    (h : s.port = .command c :: rest) (hl : illegalHeader c.header = true) :
    step s = .next (answer .illegal .none { s with port := rest }) :=
  step_of_port_command h (decodeCommand_of_illegal hl)

/-- Settles O39 (R175, R71, R86): by `illegalHeader_iff` the clauses are those of the decoder, which
asks them before it looks at an operand. -/
theorem illegalHeadersHaveNoEffect : Obligations.IllegalHeadersHaveNoEffect :=
  ⟨fun _ _ => rfl, fun c _ _ hport h =>
    step_of_port_illegal hport ((illegalHeader_iff c.header).2 h)⟩

end Sys2Proof.Machine
end

section
/-! ## Exceptions: the one error and the total step (60_exceptions.md R190 to R193)

Both claims go through `Effect`: which effect can enter `ERROR`, and that no effect touches the port. -/

namespace Sys2Proof.Machine

/-! ### The effect that enters `ERROR` (R193) -/

theorem postSend_ne_error (s : State) : postSend s ≠ .error := by
  unfold postSend
  split <;> decide

theorem execLoad_state_of_standard {tidin : Word} {a f : Bool} {p : List Byte} {s t : State}
    (ht : tidin < Config.STD_LIMIT) (h : execLoad tidin a f p s = .next t) : t.state = .ready := by
  rw [execLoad, if_neg (BitVec.not_le.2 ht)] at h
  cases h
  rfl

theorem txConsecutiveFrame_state_ne_error {s : State} (hlt : s.txprog < s.txlen)
    (hs : s.state ≠ .error) : (txConsecutiveFrame s).state ≠ .error := by
  rw [txConsecutiveFrame_state hlt]
  split
  · exact hs
  · exact postSend_ne_error s

theorem rxFirst_state_ne_error (n : BitVec 4) (d : FrameTail) (s : State) :
    (rxFirst n d s).state ≠ .error := by
  obtain ⟨m, hm⟩ := rxFirst_eq n d s
  rw [hm]
  dsimp only
  split <;> decide

theorem rxConsecutive_state_ne_error (d : FrameTail) {s : State} (hs : s.state ≠ .error) :
    (rxConsecutive d s).state ≠ .error := by
  rw [rxConsecutive_state]
  split
  · decide
  · exact hs

/-- An unsegmented frame leads to `ERROR` by the pattern of a terminal negative response alone (R147). -/
theorem rxSingle_enters_error {n : BitVec 4} {d : FrameTail} {s : State} (hs : s.state ≠ .error)
    (h : (rxSingle n d s).state = .error) :
    d.d1 = s.params.negSid ∧ nrcByte s.params.nrcIndex d ≠ s.params.nrcPending := by
  rw [rxSingle_state] at h
  split_ifs at h with hneg hnrc
  · exact absurd h hs
  · exact ⟨hneg, hnrc⟩

/-- Of a command's effects only an awaited unsegmented frame's enters `ERROR`. -/
theorem Effect.of_enters_error {i : Instr} {s t : State} (he : Effect i s t)
    (hs : s.state ≠ .error) (ht : t.state = .error) :
    ∃ rxid n d, (i = .rxSf rxid n d ∨ i = .consume rxid ⟨0x0#4 ++ n, d⟩) ∧
      idMatches rxid s = true ∧ s.state = .awaitingReply ∧ t = Machine.rxSingle n d s := by
  cases he with
  | rxSingle rxid n d hi hm hreply => exact ⟨rxid, n, d, hi, hm, hreply, rfl⟩
  | quiet => exact absurd ht hs
  | load _ _ _ _ _ _ hstd hload =>
    rw [execLoad_state_of_standard hstd hload] at ht
    cases ht
  | raw | single | nothing => exact absurd ht (postSend_ne_error s)
  | consecutive _ _ _ _ hlt => exact absurd ht (txConsecutiveFrame_state_ne_error hlt hs)
  | first | flowControl | rxFlowControl => cases ht
  | rxFirst _ n d => exact absurd ht (rxFirst_state_ne_error n d s)
  | rxConsecutive _ _ d => exact absurd ht (rxConsecutive_state_ne_error d hs)

/-- Settles O33 (R192, R193, R146): the pattern is read off the state entered
(`rxSingle_enters_error`), and what the frame leaves is O23's. -/
theorem errorKeepsTheNegativeResponse : Obligations.ErrorKeepsTheNegativeResponse := by
  intro i s t h hs ht
  obtain ⟨rxid, n, d, hi, hm, hreply, rfl⟩ := (exec_effect h).of_enters_error hs ht
  obtain ⟨hneg, hnrc⟩ := rxSingle_enters_error hs ht
  have hid : rxid.toNat % 256 = s.tid.toNat % 256 := (idMatches_iff rxid s).1 hm
  obtain ⟨t, hexec, hregs, hheld, hkept⟩ := unsegmentedReplyEndsTheTransfer rxid n d s hid hreply
    (fun hpat => hnrc hpat.2) i (List.mem_pair.2 hi)
  cases h.symm.trans hexec
  rw [if_pos hneg] at hregs
  exact ⟨rxid, n, d, hi, hid, hreply, hneg, hnrc, hregs, hheld, hkept⟩

/-! ### The port after a command (R190) -/

theorem WritesReceiveSide.port_eq {s t : State} (h : WritesReceiveSide s t) : t.port = s.port := by
  unfold WritesReceiveSide at h
  rw [h]

theorem execLoad_port {tidin : Word} {a f : Bool} {p : List Byte} {s t : State}
    (h : execLoad tidin a f p s = .next t) : t.port = s.port := by
  unfold execLoad at h
  split at h <;> (cases h; rfl)

theorem Effect.port_eq {i : Instr} {s t : State} (he : Effect i s t) : t.port = s.port := by
  cases he with
  | load _ _ _ _ _ _ _ hload => exact execLoad_port hload
  | rxSingle _ n d => exact (rxSingle_writes n d s).port_eq
  | rxFirst _ n d => exact (rxFirst_writes n d s).port_eq
  | rxConsecutive _ _ d => exact (rxConsecutive_writes d s).port_eq
  | quiet | raw | single | first | consecutive | nothing | flowControl | rxFlowControl => rfl

theorem exec_port {i : Instr} {s t : State} (h : exec i s = .next t) : t.port = s.port :=
  (exec_effect h).port_eq

/-! ### The total step (R190) -/

/-- The commands of the interface are the transactions that decode (R73). -/
theorem Input.wellFormed_command_iff (c : Command) :
    (Input.command c).wellFormed = true ↔ ∃ i, decode (.cmd c) = .ok i := by
  rw [Input.wellFormed]
  cases decode (.cmd c) <;> simp

theorem portWf_cons_iff {s : State} {e : Input} {rest : List Input} (h : s.port = e :: rest) :
    PortWf s ↔ e.wellFormed = true ∧ ∀ e' ∈ rest, e'.wellFormed = true := by
  rw [PortWf, h, List.forall_mem_cons]

/-- Settles O48 (R190): by the head of the port. A command of the interface answers a next state
(`exec_next_of_decode`), which holds a result (`exec_answers`) and the rest of the port. -/
theorem everyPresentedCommandCompletes : Obligations.EveryPresentedCommandCompletes := by
  intro s hwf
  match hport : s.port with
  | [] => exact ⟨s, step_of_port_nil hport, hwf, nofun⟩
  | .reset :: rest =>
    obtain ⟨-, hrest⟩ := (portWf_cons_iff hport).1 hwf
    exact ⟨_, step_of_port_reset hport, hrest, nofun⟩
  | .command c :: rest =>
    obtain ⟨hc, hrest⟩ := (portWf_cons_iff hport).1 hwf
    obtain ⟨i, hdec⟩ := (Input.wellFormed_command_iff c).1 hc
    obtain ⟨t, hexec⟩ := exec_next_of_decode hdec { s with port := rest }
    have htaken : t.port = rest := exec_port hexec
    obtain ⟨r, hresult, -⟩ := exec_answers hexec
    refine ⟨t, (step_of_port_command hport hdec).trans hexec, by rwa [PortWf, htaken],
      fun c' rest' h => ?_⟩
    cases h
    exact ⟨by simp [hresult], htaken⟩

end Sys2Proof.Machine
end

section
/-! ## The reset event (70_reset_and_hazards.md R210)

A step that takes a reset answers `resetEvent`, which holds the
registers and the buffers of `State.reset`, so what R37 says of that state holds of it. -/

namespace Sys2Proof.Machine

/-- Settles O47 (R210, R194): the state after a reset event has the registers and the buffers of
`State.reset` (O46), and keeps the parameters and what the port still presents. -/
theorem resetEventSetsEveryRegister : Obligations.ResetEventSetsEveryRegister := by
  intro rest s hport
  obtain ⟨hstate, htid, htxlen, htxprog, hseq, hrxcnt, hrxlen, hrxlv, hawait, hfcen, htxbuf,
    hrxbuf⟩ := resetLeavesTheStatedRegisters
  exact ⟨resetEvent { s with port := rest }, step_of_port_reset hport, hstate, htid, htxlen,
    htxprog, hseq, hrxcnt, hrxlen, hrxlv, hawait, hfcen, resetEvent_params _, rfl, htxbuf, hrxbuf⟩

end Sys2Proof.Machine
end
